-- ==== Sys2Proof/Word.lean ====
section
/-! DEFINITION. The plain words of the block: bus words, bus addresses, register numbers. -/

namespace Sys2Proof

/-- A 32-bit word of the bus: a limb, a control register, a command word (00_scope.md R8
`XLEN_BUS`, 30_encoding.md R90). -/
abbrev Word := BitVec 32

/-- A byte address inside the block (00_scope.md R8 `ALEN`, 20_memory.md R60). -/
abbrev Addr := BitVec 14

/-- A register number; value k names `x[k]` (10_state.md R21, 30_encoding.md R93). -/
abbrev Reg := Fin 16

end Sys2Proof
end

