-- ==== Sys2Proof/Syntax.lean ====
section
/-! DEFINITION. The twelve commands of command set DCC-1 (30_encoding.md R96), one constructor for
each row of the opcode table, operands in the order of the row's fields. -/

namespace Sys2Proof

inductive Instr where
  /-- NOP (45_system.md R200). -/
  | nop
  /-- LDI xd, imm20 (40_bigint_add_sub_cmp.md R121). -/
  | ldi (rd : Reg) (imm : BitVec 20)
  /-- MOV xd, xa (40_bigint_add_sub_cmp.md R122). -/
  | mov (rd ra : Reg)
  /-- ADD xd, xa, xb (40_bigint_add_sub_cmp.md R125). -/
  | add (rd ra rb : Reg)
  /-- SUB xd, xa, xb (40_bigint_add_sub_cmp.md R126). -/
  | sub (rd ra rb : Reg)
  /-- CMP xa, xb (40_bigint_add_sub_cmp.md R127). -/
  | cmp (ra rb : Reg)
  /-- MODMUL xd, xa, xb, xm with the modulus in rc (41_modmul.md R142). -/
  | modmul (rd ra rb rc : Reg)
  /-- MODEXP xd, xbase, xexp, xm with the modulus in rc (42_modexp.md R152). -/
  | modexp (rd ra rb rc : Reg)
  /-- EGCD xg, xs, xt, xa, xb: g to rd, |x| to rc, |y| to re (43_egcd_modinv.md R163). -/
  | egcd (rd ra rb rc re : Reg)
  /-- MODINV xd, xa, xm with the modulus in rc (43_egcd_modinv.md R165). -/
  | modinv (rd ra rc : Reg)
  /-- PRIME xn (44_primality.md R184). -/
  | prime (ra : Reg)
  /-- MRROUND xn, xw with the witness in rb (44_primality.md R185). -/
  | mrround (ra rb : Reg)
  deriving DecidableEq, Repr

end Sys2Proof
end

