-- ==== Sys2Proof/WellFormed.lean ====
section
/-! DEFINITION. The one legality condition that the types of the operands do not already say: the
three destinations of EGCD are pairwise distinct (30_encoding.md R99, 43_egcd_modinv.md R162). -/

namespace Sys2Proof

/-- The condition of 43_egcd_modinv.md R162 on EGCD's destinations. -/
def Instr.distinctDests (rd rc re : Reg) : Bool := rd ≠ rc && rd ≠ re && rc ≠ re

/-- Legality of a command beyond mask and match (30_encoding.md R99). -/
def Instr.wellFormed : Instr → Bool
  | .nop => true
  | .ldi _ _ => true
  | .mov _ _ => true
  | .add _ _ _ => true
  | .sub _ _ _ => true
  | .cmp _ _ => true
  | .modmul _ _ _ _ => true
  | .modexp _ _ _ _ => true
  | .egcd rd _ _ rc re => Instr.distinctDests rd rc re
  | .modinv _ _ _ => true
  | .prime _ => true
  | .mrround _ _ => true

end Sys2Proof
end

