-- ==== Sys2Proof/Decode.lean ====
section
/-! DEFINITION. Command words (30_encoding.md): fields, decoder, encoder, and the mask and match
columns of the opcode table. -/

namespace Sys2Proof

/-- Why a word is illegal (30_encoding.md R98, R99). All three complete with ERRC = 1. -/
inductive Illegal where
  /-- The opcode byte is none of the twelve (R98 a). -/
  | unknownOpcode
  /-- A known opcode with a nonzero must-be-zero bit (R98 b). -/
  | mustBeZero
  /-- An EGCD whose destinations are not pairwise distinct (R99). -/
  | egcdDests
  deriving DecidableEq, Repr

/-- The field `w[hi:lo]` as an unsigned integer (00_scope.md R10). -/
def slice (w : Word) (hi lo : Nat) : Nat := w.toNat / 2 ^ lo % 2 ^ (hi + 1 - lo)

/-- The 4-bit register number in bits [lo+3:lo] (30_encoding.md R93). -/
def regAt (w : Word) (lo : Nat) : Reg := ⟨w.toNat / 2 ^ lo % 16, Nat.mod_lt _ (by decide)⟩

/-- The command `i`, unless the must-be-zero field `z` holds something else (30_encoding.md R95). -/
def ifZero (z : Nat) (i : Instr) : Except Illegal Instr :=
  if z = 0 then .ok i else .error .mustBeZero

/-- The rows of the opcode table by name (30_encoding.md R96). -/
inductive Command where
  | nop | ldi | mov | add | sub | cmp | modmul | modexp | egcd | modinv | prime | mrround
  deriving DecidableEq, Repr

/-- Column `op` of the table (30_encoding.md R92, R96). -/
def Command.opcode : Command → Nat
  | .nop => 0x00
  | .ldi => 0x01
  | .mov => 0x02
  | .add => 0x10
  | .sub => 0x11
  | .cmp => 0x12
  | .modmul => 0x20
  | .modexp => 0x30
  | .egcd => 0x40
  | .modinv => 0x41
  | .prime => 0x50
  | .mrround => 0x51

/-- The rows in the table's order. -/
def Command.all : List Command :=
  [.nop, .ldi, .mov, .add, .sub, .cmp, .modmul, .modexp, .egcd, .modinv, .prime, .mrround]

/-- The row of an opcode; none for the 244 opcodes that are not assigned (30_encoding.md R92). -/
def Command.ofOpcode (op : Nat) : Option Command := Command.all.find? fun c => c.opcode == op

/-- The operands of a row's command and its must-be-zero fields (30_encoding.md R91 to R96). -/
def Command.read (c : Command) (w : Word) : Except Illegal Instr :=
  let rd := regAt w 20
  let ra := regAt w 16
  let rb := regAt w 12
  let rc := regAt w 8
  let re := regAt w 4
  match c with
  | .nop => ifZero (slice w 23 0) .nop
  | .ldi => .ok (.ldi rd (BitVec.ofNat 20 (slice w 19 0)))
  | .mov => ifZero (slice w 15 0) (.mov rd ra)
  | .add => ifZero (slice w 11 0) (.add rd ra rb)
  | .sub => ifZero (slice w 11 0) (.sub rd ra rb)
  | .cmp => ifZero (slice w 23 20 + slice w 11 0) (.cmp ra rb)
  | .modmul => ifZero (slice w 7 0) (.modmul rd ra rb rc)
  | .modexp => ifZero (slice w 7 0) (.modexp rd ra rb rc)
  | .egcd => ifZero (slice w 3 0) (.egcd rd ra rb rc re)
  | .modinv => ifZero (slice w 15 12 + slice w 7 0) (.modinv rd ra rc)
  | .prime => ifZero (slice w 23 20 + slice w 15 0) (.prime ra)
  | .mrround => ifZero (slice w 23 20 + slice w 11 0) (.mrround ra rb)

/-- The command a word selects, by opcode and must-be-zero bits (30_encoding.md R92, R95, R96): total
on all 2^32 words. EGCD's distinctness is judged after it (10_state.md R45 step 2). -/
def decode (w : Word) : Except Illegal Instr :=
  match Command.ofOpcode (slice w 31 24) with
  | some c => c.read w
  | none => .error .unknownOpcode

/-- The verdict on a word, EGCD's distinctness included: one of the twelve commands or ILLEGAL
(30_encoding.md R98). -/
def verdict (w : Word) : Except Illegal Instr :=
  match decode w with
  | .ok i => if i.wellFormed then .ok i else .error .egcdDests
  | .error e => .error e

/-- The word of a command (30_encoding.md R101). -/
def encode : Instr → Word
  | .nop => 0
  | .ldi rd imm => BitVec.ofNat 32 (0x01000000 + rd.val * 2 ^ 20 + imm.toNat)
  | .mov rd ra => BitVec.ofNat 32 (0x02000000 + rd.val * 2 ^ 20 + ra.val * 2 ^ 16)
  | .add rd ra rb =>
    BitVec.ofNat 32 (0x10000000 + rd.val * 2 ^ 20 + ra.val * 2 ^ 16 + rb.val * 2 ^ 12)
  | .sub rd ra rb =>
    BitVec.ofNat 32 (0x11000000 + rd.val * 2 ^ 20 + ra.val * 2 ^ 16 + rb.val * 2 ^ 12)
  | .cmp ra rb => BitVec.ofNat 32 (0x12000000 + ra.val * 2 ^ 16 + rb.val * 2 ^ 12)
  | .modmul rd ra rb rc =>
    BitVec.ofNat 32
      (0x20000000 + rd.val * 2 ^ 20 + ra.val * 2 ^ 16 + rb.val * 2 ^ 12 + rc.val * 2 ^ 8)
  | .modexp rd ra rb rc =>
    BitVec.ofNat 32
      (0x30000000 + rd.val * 2 ^ 20 + ra.val * 2 ^ 16 + rb.val * 2 ^ 12 + rc.val * 2 ^ 8)
  | .egcd rd ra rb rc re =>
    BitVec.ofNat 32
      (0x40000000 + rd.val * 2 ^ 20 + ra.val * 2 ^ 16 + rb.val * 2 ^ 12 + rc.val * 2 ^ 8
        + re.val * 2 ^ 4)
  | .modinv rd ra rc =>
    BitVec.ofNat 32 (0x41000000 + rd.val * 2 ^ 20 + ra.val * 2 ^ 16 + rc.val * 2 ^ 8)
  | .prime ra => BitVec.ofNat 32 (0x50000000 + ra.val * 2 ^ 16)
  | .mrround ra rb => BitVec.ofNat 32 (0x51000000 + ra.val * 2 ^ 16 + rb.val * 2 ^ 12)

/-- The row a command belongs to. -/
def Instr.command : Instr → Command
  | .nop => .nop
  | .ldi _ _ => .ldi
  | .mov _ _ => .mov
  | .add _ _ _ => .add
  | .sub _ _ _ => .sub
  | .cmp _ _ => .cmp
  | .modmul _ _ _ _ => .modmul
  | .modexp _ _ _ _ => .modexp
  | .egcd _ _ _ _ _ => .egcd
  | .modinv _ _ _ => .modinv
  | .prime _ => .prime
  | .mrround _ _ => .mrround

/-- Column `mask` of the table (30_encoding.md R96). -/
def Command.mask : Command → Word
  | .nop => 0xFFFFFFFF
  | .ldi => 0xFF000000
  | .mov => 0xFF00FFFF
  | .add => 0xFF000FFF
  | .sub => 0xFF000FFF
  | .cmp => 0xFFF00FFF
  | .modmul => 0xFF0000FF
  | .modexp => 0xFF0000FF
  | .egcd => 0xFF00000F
  | .modinv => 0xFF00F0FF
  | .prime => 0xFFF0FFFF
  | .mrround => 0xFFF00FFF

/-- Column `match` of the table (30_encoding.md R96). -/
def Command.pattern : Command → Word
  | .nop => 0x00000000
  | .ldi => 0x01000000
  | .mov => 0x02000000
  | .add => 0x10000000
  | .sub => 0x11000000
  | .cmp => 0x12000000
  | .modmul => 0x20000000
  | .modexp => 0x30000000
  | .egcd => 0x40000000
  | .modinv => 0x41000000
  | .prime => 0x50000000
  | .mrround => 0x51000000

/-- A word selects a row exactly when its bits under the mask are the pattern (30_encoding.md R95). -/
abbrev Command.selects (c : Command) (w : Word) : Prop := w &&& c.mask = c.pattern

/-- The command of a word whose low `nbits` bits are those of `w`, every higher bit 0. -/
def decodeTableWord (nbits w : Nat) : Option Instr :=
  match decode (BitVec.ofNat 32 (w % 2 ^ nbits)) with
  | .ok i => some i
  | .error _ => none

end Sys2Proof
end

