-- ==== Sys2Proof/Config.lean ====
section
/-! DEFINITION. What an instance of the block fixes: its operand width (00_scope.md R8). -/

namespace Sys2Proof

/-- The parameter of an instance: `LIMBS`, the 32-bit limbs of an operand register
(00_scope.md R8). `LAT`, the other open parameter, has no value here: the model has no time
(70_reset_and_hazards.md R282), and `State.turns` says when a command completes. -/
structure Config where
  limbs : Nat
  deriving DecidableEq, Repr

/-- `W = 32·LIMBS`, the width of every operand register (00_scope.md R8). -/
def Config.width (c : Config) : Nat := 32 * c.limbs

/-- The legal instances: `2 ≤ LIMBS ≤ 128` (00_scope.md R8). -/
abbrev Config.legal (c : Config) : Prop := 2 ≤ c.limbs ∧ c.limbs ≤ 128

/-- The reference instance, W = 2048 (00_scope.md R8). -/
def Config.reference : Config := ⟨64⟩

end Sys2Proof
end

