-- ==== Sys2Proof/Machine/State.lean ====
section
/-! DEFINITION. The state of the block (10_state.md R20), the port's response (20_memory.md R60), the
moves of the outside world, the reasons a step can stop, and the state after reset. -/

namespace Sys2Proof.Machine

/-- Completion codes, the values `STATUS.ERRC` takes (60_exceptions.md R241). -/
inductive ErrCode where
  /-- 0: success. -/
  | ok
  /-- 1: no row of the opcode table, or EGCD with equal destinations. -/
  | illegal
  /-- 2: a zero modulus (MODMUL, MODEXP, MODINV). -/
  | invmod
  /-- 3: no inverse (MODINV). -/
  | noinv
  /-- 4: a witness below 2 (MRROUND). -/
  | range
  deriving DecidableEq, Repr

/-- The five result flags (10_state.md R25). -/
structure Flags where
  z : Bool
  c : Bool
  xneg : Bool
  yneg : Bool
  p : Bool
  deriving DecidableEq, Repr

/-- The size of a bus transaction; `reserved` is the port's `size = 3` (20_memory.md R60, R65). -/
inductive Size where
  | byte | half | word | reserved
  deriving DecidableEq, Repr

/-- A bus transaction of the host (20_memory.md R65). -/
inductive Transaction where
  | read (addr : Addr) (size : Size)
  | write (addr : Addr) (size : Size) (data : Word)
  deriving DecidableEq, Repr

/-- The response code of a transaction (20_memory.md R63, R70). -/
inductive Resp where
  | okay | error
  deriving DecidableEq, Repr

/-- What the port answers to a transaction: `rerr` and `rdata`; the data of a write's answer is 0
(20_memory.md R60, R63). -/
structure Response where
  resp : Resp
  data : Word
  deriving DecidableEq, Repr

/-- One move of the world around the datapath: the steps of 10_state.md R49. -/
inductive Turn where
  /-- A host read or write. -/
  | transaction (t : Transaction)
  /-- The engine's turn: `LAT` of the command in flight has elapsed (10_state.md R44). -/
  | completion
  /-- The pin reset (70_reset_and_hazards.md R270). -/
  | pinReset
  deriving DecidableEq, Repr

/-- The state. `x` to `istat` are the architectural state of 10_state.md R20; `resp` is the port's
response output, absent when `rvalid = 0` (20_memory.md R62; log entry 6); `cfg` is the instance's parameter, a
constant that no step changes (00_scope.md R8; log entry 1); `turns` is the model's own: what the
host does next and when the engine completes (10_state.md R49; log entry 2). -/
structure State where
  cfg : Config
  /-- Operand registers, unsigned integers in [0, 2^W) (R21; the range is `State.Inv`, log entry 4). -/
  x : Vector Nat 16
  flags : Flags
  /-- `STATUS.BUSY` (R33): a command is in flight, and it is `cmdr` (R41). -/
  busy : Bool
  /-- `STATUS.DONE` (R33). -/
  done : Bool
  /-- `STATUS.ERRC` (R33). -/
  errc : ErrCode
  /-- The last accepted command word (R34). -/
  cmdr : Word
  /-- Bits 2, 1, 0 = HAZ_IE, ERR_IE, DONE_IE (R36). -/
  ien : BitVec 3
  /-- Bits 2, 1, 0 = HAZ_IP, ERR_IP, DONE_IP (R37). -/
  istat : BitVec 3
  resp : Option Response
  turns : List Turn
  deriving DecidableEq, Repr

/-- Reasons a step can stop with a fault: none. Every command terminates and completes
(70_reset_and_hazards.md R281), there is no trap (60_exceptions.md R247), and every transaction has a
defined effect (50_host_software.md R229; log entry 12). A type without constructors, raised by nobody. -/
inductive Fault where
  deriving DecidableEq, Repr

/-- Reasons a step can be refused. -/
inductive Refusal where
  /-- An instruction without a meaning, by its mnemonic. Raised by nobody in this model (every arm of
  `exec` has its meaning); a stop of this kind is safe. -/
  | notModelled (mnemonic : String)
  deriving DecidableEq, Repr

/-- All flags 0 (10_state.md R48). -/
def Flags.zero : Flags := ⟨false, false, false, false, false⟩

/-- The state after reset of the reference instance (10_state.md R48, 70_reset_and_hazards.md R270),
with nothing scheduled. -/
def State.reset : State where
  cfg := Config.reference
  x := Vector.replicate 16 0
  flags := Flags.zero
  busy := false
  done := false
  errc := .ok
  cmdr := 0
  ien := 0
  istat := 0
  resp := none
  turns := []

end Sys2Proof.Machine
end

