-- ==== Sys2Proof/Machine/Ops.lean ====
section
/-! DEFINITION. The named operations on the state: registers, ISTAT, acceptance, the two forms of
completion, reset. Every meaning and every transaction is written over these. -/

namespace Sys2Proof.Machine

/-- Read of operand register r (00_scope.md R11). -/
def State.reg (s : State) (r : Reg) : Nat := s.x[r]

/-- Write of operand register r; all registers are alike, none is hard-wired (10_state.md R22). -/
def State.setReg (s : State) (r : Reg) (v : Nat) : State := { s with x := s.x.set r v }

/-- Write of the flags; the caller keeps those its command does not name (10_state.md R26). -/
def State.setFlags (s : State) (f : Flags) : State := { s with flags := f }

/-- `W` of the instance (00_scope.md R8). -/
def State.width (s : State) : Nat := s.cfg.width

/-- The DONE bit of IEN and ISTAT (10_state.md R36, R37). -/
def doneBit : BitVec 3 := 0b001#3
/-- The ERR bit of IEN and ISTAT (10_state.md R36, R37). -/
def errBit : BitVec 3 := 0b010#3
/-- The HAZ bit of IEN and ISTAT (10_state.md R36, R37). -/
def hazBit : BitVec 3 := 0b100#3

/-- Set pending bits; they are sticky (10_state.md R37). -/
def State.pend (s : State) (b : BitVec 3) : State := { s with istat := s.istat ||| b }

/-- The hazard: the access is dropped and HAZ_IP is set (70_reset_and_hazards.md R276). -/
def State.hazard (s : State) : State := s.pend hazBit

/-- Acceptance of a command word (10_state.md R42). -/
def State.accept (s : State) (w : Word) : State :=
  { s with cmdr := w, busy := true, done := false, errc := .ok }

/-- The part of a completion common to success and error (10_state.md R44, last three lines). -/
def State.endCommand (s : State) : State := { s with busy := false, done := true }.pend doneBit

/-- Completion with success, after the command's writes (10_state.md R44). -/
def State.succeed (s : State) : State := { s.endCommand with errc := .ok }

/-- The error completion, which is all that an exception is here: no register and no flag is
written, only STATUS and ISTAT change, and no control is transferred (10_state.md R44,
60_exceptions.md R243, R247). There is nothing to return from (R248). -/
def State.errorCompletion (s : State) (e : ErrCode) : State :=
  { s.endCommand.pend errBit with errc := e }

/-- Every piece of state of 10_state.md R20 at its reset value (R47, R48); a command in flight is
abandoned. The instance, the port's response and the host's plans are no part of R20. -/
def State.blockReset (s : State) : State :=
  { s with
    x := Vector.replicate 16 0, flags := Flags.zero, busy := false, done := false, errc := .ok,
    cmdr := 0, ien := 0, istat := 0 }

/-- The pin reset: the same, and the port's outputs are 0 (70_reset_and_hazards.md R270). -/
def State.pinReset (s : State) : State := { s.blockReset with resp := none }

/-- The output pin (10_state.md R38). -/
def State.irq (s : State) : Bool := s.ien &&& s.istat ≠ 0

/-- `STATUS.ERRC` as its four bits (60_exceptions.md R241). -/
def ErrCode.bits : ErrCode → BitVec 4
  | .ok => 0
  | .illegal => 1
  | .invmod => 2
  | .noinv => 3
  | .range => 4

/-- STATUS as read (20_memory.md R66): {24'b0, ERRC[3:0], 2'b0, DONE, BUSY}. -/
def State.statusWord (s : State) : Word :=
  0#24 ++ s.errc.bits ++ 0#2 ++ BitVec.ofBool s.done ++ BitVec.ofBool s.busy

/-- FLAGS as read (20_memory.md R66): {27'b0, P, YNEG, XNEG, C, Z}. -/
def State.flagsWord (s : State) : Word :=
  0#27 ++ BitVec.ofBool s.flags.p ++ BitVec.ofBool s.flags.yneg ++ BitVec.ofBool s.flags.xneg
    ++ BitVec.ofBool s.flags.c ++ BitVec.ofBool s.flags.z

end Sys2Proof.Machine
end

