-- ==== Sys2Proof/Machine/Operands.lean ====
section
/-! DEFINITION. Operand forms: the immediate, wrapping to W bits, and the limbs through which the host
sees a register (20_memory.md R68). Register operands are `State.reg` and `State.setReg`. -/

namespace Sys2Proof.Machine

/-- `zext_W(imm20)`: the value, zero-extended, not scaled (30_encoding.md R94). -/
def immValue (imm : BitVec 20) : Nat := imm.toNat

/-- An exact integer reduced to the W bits of a register (40_bigint_add_sub_cmp.md R120). -/
def State.wrap (s : State) (v : Int) : Nat := (v % (2 ^ s.width : Nat)).toNat

/-- `limb(v, i) = v[32i+31:32i]` (00_scope.md R10). -/
def limb (v i : Nat) : Word := BitVec.ofNat 32 (v / 2 ^ (32 * i))

/-- `v` with its bits [32i+31:32i] replaced by `l` (20_memory.md R67). -/
def setLimb (v i : Nat) (l : Word) : Nat :=
  v / 2 ^ (32 * (i + 1)) * 2 ^ (32 * (i + 1)) + l.toNat * 2 ^ (32 * i) + v % 2 ^ (32 * i)

/-- The value of limbs listed from the least significant (20_memory.md R68: Σ limb_i · 2^(32i)). -/
def ofLimbs : List Word → Nat
  | [] => 0
  | l :: rest => l.toNat + 2 ^ 32 * ofLimbs rest

end Sys2Proof.Machine
end

