-- ==== Sys2Proof/Machine/Bus.lean ====
section
/-! DEFINITION. The host's transactions (20_memory.md R63 to R70): address map, `MemRead`, `MemWrite`. -/

namespace Sys2Proof.Machine

/-- What an address names (20_memory.md R64, 10_state.md R28). -/
inductive Target where
  | idReg | cfgReg | ctrlReg | statusReg | cmdReg | flagsReg | ienReg | istatReg
  | unmapped
  /-- Limb position `i`, 0 to 127, of operand register `r` (R68, R69). -/
  | window (r : Reg) (i : Nat)
  deriving DecidableEq, Repr

/-- The constant of ID (10_state.md R30). -/
def idWord : Word := 0x44435201

/-- CFG of the instance: LIMBS and NREG = 16 (10_state.md R31). -/
def Config.word (c : Config) : Word := BitVec.ofNat 32 (0x1000 + c.limbs)

/-- The register number of a window address: (addr - 0x2000) div 0x200 (R66). -/
def windowReg (a : Addr) : Reg := ⟨(a.toNat - 0x2000) / 0x200, by have := a.isLt; omega⟩

/-- The limb position of a window address: ((addr - 0x2000) mod 0x200) div 4 (R66). -/
def windowLimb (a : Addr) : Nat := (a.toNat - 0x2000) % 0x200 / 4

/-- The address of limb position `i` of register `r` (R68). -/
def windowAddr (r : Reg) (i : Nat) : Addr := BitVec.ofNat 14 (0x2000 + 0x200 * r.val + 4 * i)

/-- The map of the address space (R64); misaligned addresses are refused before it is consulted. -/
def target (a : Addr) : Target :=
  if a.toNat < 0x20 then
    match a.toNat / 4 with
    | 0 => .idReg
    | 1 => .cfgReg
    | 2 => .ctrlReg
    | 3 => .statusReg
    | 4 => .cmdReg
    | 5 => .flagsReg
    | 6 => .ienReg
    | _ => .istatReg
  else if a.toNat < 0x2000 then .unmapped
  else .window (windowReg a) (windowLimb a)

/-- Four bytes wide and aligned to four (R65, R72). -/
def wellFormedAccess (a : Addr) (n : Size) : Bool := n == .word && a.toNat % 4 == 0

/-- A limb position as read: 0 where the limb does not exist (R66, R69). -/
def State.readLimb (s : State) (r : Reg) (i : Nat) : Word :=
  if i < s.cfg.limbs then limb (s.reg r) i else 0

/-- A limb position written: ignored where the limb does not exist (R67, R69). -/
def State.writeLimb (s : State) (r : Reg) (i : Nat) (v : Word) : State :=
  if i < s.cfg.limbs then s.setReg r (setLimb (s.reg r) i v) else s

/-- The ERROR response, with read data 0 (R70). -/
def busError : Response := ⟨.error, 0⟩

/-- `MemRead` (R66, R70): the answer, and the state with the read's side effect. -/
def memRead (a : Addr) (n : Size) (s : State) : Response × State :=
  if !wellFormedAccess a n then (busError, s)
  else match target a with
    | .idReg => (⟨.okay, idWord⟩, s)
    | .cfgReg => (⟨.okay, Config.word s.cfg⟩, s)
    | .ctrlReg => (⟨.okay, 0⟩, s)
    | .statusReg => (⟨.okay, s.statusWord⟩, s)
    | .cmdReg => (⟨.okay, s.cmdr⟩, s)
    | .flagsReg => (⟨.okay, s.flagsWord⟩, s)
    | .ienReg => (⟨.okay, 0#29 ++ s.ien⟩, s)
    | .istatReg => (⟨.okay, 0#29 ++ s.istat⟩, s)
    | .unmapped => (busError, s)
    | .window r i => if s.busy then (⟨.okay, 0⟩, s.hazard) else (⟨.okay, s.readLimb r i⟩, s)

/-- `MemWrite` (R67, R70): the answer, and the state with the write's effect. -/
def memWrite (a : Addr) (n : Size) (v : Word) (s : State) : Response × State :=
  if !wellFormedAccess a n then (busError, s)
  else match target a with
    | .idReg => (⟨.okay, 0⟩, s)
    | .cfgReg => (⟨.okay, 0⟩, s)
    | .ctrlReg => (⟨.okay, 0⟩, if v.getLsbD 0 then s.blockReset else s)
    | .statusReg => (⟨.okay, 0⟩, s)
    | .cmdReg => (⟨.okay, 0⟩, if s.busy then s.hazard else s.accept v)
    | .flagsReg => (⟨.okay, 0⟩, s)
    | .ienReg => (⟨.okay, 0⟩, { s with ien := v.extractLsb' 0 3 })
    | .istatReg => (⟨.okay, 0⟩, { s with istat := s.istat &&& ~~~(v.extractLsb' 0 3) })
    | .unmapped => (busError, s)
    | .window r i => (⟨.okay, 0⟩, if s.busy then s.hazard else s.writeLimb r i v)

/-- One transaction as an atomic step of the host, its answer at the port (R61 to R63). -/
def transact (t : Transaction) (s : State) : State :=
  match t with
  | .read a n => { (memRead a n s).2 with resp := some (memRead a n s).1 }
  | .write a n v => { (memWrite a n v s).2 with resp := some (memWrite a n v s).1 }

end Sys2Proof.Machine
end

