-- ==== Sys2Proof/Machine/Flags.lean ====
section
/-! DEFINITION. Every flag computation (10_state.md R25, R26); a flag that a command does not name
keeps its value. -/

namespace Sys2Proof.Machine

/-- ADD: Z looks at the W-bit result, C is the carry out (40_bigint_add_sub_cmp.md R125). -/
def Flags.ofAdd (f : Flags) (width a b : Nat) : Flags :=
  { f with z := (a + b) % 2 ^ width == 0, c := decide (2 ^ width ≤ a + b) }

/-- SUB: Z when the exact difference is 0, C is the borrow (40_bigint_add_sub_cmp.md R126). -/
def Flags.ofSub (f : Flags) (a b : Nat) : Flags :=
  { f with z := (a : Int) - b == 0, c := decide (a < b) }

/-- CMP: Z when equal, C when below, unsigned (40_bigint_add_sub_cmp.md R127). -/
def Flags.ofCmp (f : Flags) (a b : Nat) : Flags := { f with z := a == b, c := decide (a < b) }

/-- EGCD: the signs of the two coefficients; zero has sign 0 (43_egcd_modinv.md R163). -/
def Flags.ofBezout (f : Flags) (x y : Int) : Flags :=
  { f with xneg := decide (x < 0), yneg := decide (y < 0) }

/-- PRIME and MRROUND: the verdict (44_primality.md R184, R185). -/
def Flags.ofVerdict (f : Flags) (b : Bool) : Flags := { f with p := b }

end Sys2Proof.Machine
end

