-- ==== Sys2Proof/Machine/BigInt.lean ====
section
/-! DEFINITION. Load, move, add, subtract, compare (40_bigint_add_sub_cmp.md). -/

namespace Sys2Proof.Machine

/-- LDI: all W bits are written, no flag (R121). -/
def execLdi (rd : Reg) (imm : BitVec 20) (s : State) : Host.Outcome State Fault Refusal :=
  .next (s.setReg rd (immValue imm)).succeed

/-- MOV: no flag (R122). -/
def execMov (rd ra : Reg) (s : State) : Host.Outcome State Fault Refusal :=
  .next (s.setReg rd (s.reg ra)).succeed

/-- ADD: the sum modulo 2^W, flags Z and C (R125). -/
def execAdd (rd ra rb : Reg) (s : State) : Host.Outcome State Fault Refusal :=
  .next ((s.setReg rd (s.wrap (s.reg ra + s.reg rb))).setFlags
    (s.flags.ofAdd s.width (s.reg ra) (s.reg rb))).succeed

/-- SUB: the difference modulo 2^W, flags Z and C (R126). -/
def execSub (rd ra rb : Reg) (s : State) : Host.Outcome State Fault Refusal :=
  .next ((s.setReg rd (s.wrap (s.reg ra - s.reg rb))).setFlags
    (s.flags.ofSub (s.reg ra) (s.reg rb))).succeed

/-- CMP: flags Z and C only (R127). -/
def execCmp (ra rb : Reg) (s : State) : Host.Outcome State Fault Refusal :=
  .next (s.setFlags (s.flags.ofCmp (s.reg ra) (s.reg rb))).succeed

end Sys2Proof.Machine
end

