-- ==== Sys2Proof/Machine/Egcd.lean ====
section
/-! DEFINITION. The extended-Euclid solver and the modular inverse (43_egcd_modinv.md). -/

namespace Sys2Proof.Machine

/-- The six working values of the loop of R161; hidden state (10_state.md R41). -/
structure EgcdRow where
  oldR : Nat
  r : Nat
  oldS : Int
  s : Int
  oldT : Int
  t : Int
  deriving DecidableEq, Repr

/-- The row before the first iteration (R161). -/
def EgcdRow.start (a b : Nat) : EgcdRow := ⟨a, b, 1, 0, 0, 1⟩

/-- One iteration of R161, for r ≠ 0. -/
def EgcdRow.next (e : EgcdRow) : EgcdRow :=
  let q : Nat := e.oldR / e.r
  ⟨e.r, e.oldR % e.r, e.s, e.oldS - q * e.s, e.t, e.oldT - q * e.t⟩

/-- The `while r != 0` loop of R161; the first argument bounds the iterations, and since r strictly
decreases (R167) r itself is bound enough (DEDUCED, log entry 10). -/
def egcdLoop : Nat → EgcdRow → EgcdRow
  | 0, e => e
  | k + 1, e => if e.r = 0 then e else egcdLoop k e.next

/-- How many iterations that loop runs (R167). -/
def egcdIterations : Nat → EgcdRow → Nat
  | 0, _ => 0
  | k + 1, e => if e.r = 0 then 0 else egcdIterations k e.next + 1

/-- The row at exit. -/
def egcdRow (a b : Nat) : EgcdRow := egcdLoop b (EgcdRow.start a b)

/-- g of `egcd(a, b)` (R161). -/
def egcdG (a b : Nat) : Nat := (egcdRow a b).oldR
/-- x of `egcd(a, b)` (R161). -/
def egcdX (a b : Nat) : Int := (egcdRow a b).oldS
/-- y of `egcd(a, b)` (R161). -/
def egcdY (a b : Nat) : Int := (egcdRow a b).oldT

/-- EGCD: ILLEGAL when the destinations are not pairwise distinct (R162), else g, |x|, |y| and the two
sign flags (R163). -/
def execEgcd (rd ra rb rc re : Reg) (s : State) : Host.Outcome State Fault Refusal :=
  if rd = rc ∨ rd = re ∨ rc = re then .next (s.errorCompletion .illegal)
  else
    .next ((((s.setReg rd (egcdG (s.reg ra) (s.reg rb))).setReg rc
      (egcdX (s.reg ra) (s.reg rb)).natAbs).setReg re
      (egcdY (s.reg ra) (s.reg rb)).natAbs).setFlags
      (s.flags.ofBezout (egcdX (s.reg ra) (s.reg rb)) (egcdY (s.reg ra) (s.reg rb)))).succeed

/-- `modular_inverse(a, m)` for m > 0: none when the gcd is not 1, else x mod m in [0, m)
(R160, R165). -/
def modInverse (a m : Nat) : Option Nat :=
  if egcdG a m = 1 then some (egcdX a m % (m : Int)).toNat else none

/-- MODINV: INVMOD on a zero modulus, then NOINV when there is no inverse, else the inverse; no flag
(R165, 10_state.md R45). -/
def execModinv (rd ra rc : Reg) (s : State) : Host.Outcome State Fault Refusal :=
  if s.reg rc = 0 then .next (s.errorCompletion .invmod)
  else match modInverse (s.reg ra) (s.reg rc) with
    | none => .next (s.errorCompletion .noinv)
    | some v => .next (s.setReg rd v).succeed

end Sys2Proof.Machine
end

