-- ==== Sys2Proof/Machine/ModMul.lean ====
section
/-! DEFINITION. The modular multiplier (41_modmul.md): its result function, the hidden
shift-add-reduce loop that computes it, the shared divider, and the command MODMUL. -/

namespace Sys2Proof.Machine

/-- The result function `mulmod` (R140), used by the other units too (R143). -/
def mulmod (a b m : Nat) : Nat := a * b % m

/-- One subtraction of the modulus, if it fits (R141: "if R >= m: R = R - m"). -/
def reduceOnce (r m : Nat) : Nat := if m ≤ r then r - m else r

/-- The loop of R141 over the low `k` bits of `A`, from bit k-1 down to bit 0. -/
def mulLoop (A B m : Nat) : Nat → Nat → Nat
  | 0, r => r
  | k + 1, r =>
    let r := reduceOnce (2 * r) m
    let r := if A.testBit k then reduceOnce (r + B) m else r
    mulLoop A B m k r

/-- Restoring division, one quotient bit for each of the low `k` bits of `u`, from the most
significant (43_egcd_modinv.md R166): shift in the bit, compare, subtract if it fits. -/
def divLoop (u v : Nat) : Nat → Nat × Nat → Nat × Nat
  | 0, qr => qr
  | k + 1, (q, r) =>
    let r := 2 * r + (u.testBit k).toNat
    divLoop u v k (if v ≤ r then (2 * q + 1, r - v) else (2 * q, r))

/-- The shared quotient / remainder unit as the circuit does it, W iterations (R166). -/
def divCircuit (width u v : Nat) : Nat × Nat := divLoop u v width (0, 0)

/-- The multiplier as the circuit does it: operands reduced first, then W iterations (R141). -/
def mulCircuit (width a b m : Nat) : Nat :=
  mulLoop (divCircuit width a m).2 (divCircuit width b m).2 m width 0

/-- MODMUL: INVMOD on a zero modulus, else the product modulo it; no flag (R142). -/
def execModmul (rd ra rb rc : Reg) (s : State) : Host.Outcome State Fault Refusal :=
  if s.reg rc = 0 then .next (s.errorCompletion .invmod)
  else .next (s.setReg rd (mulmod (s.reg ra) (s.reg rb) (s.reg rc))).succeed

end Sys2Proof.Machine
end

