-- ==== Sys2Proof/Machine/ModExp.lean ====
section
/-! DEFINITION. The modular exponentiation engine (42_modexp.md). -/

namespace Sys2Proof.Machine

/-- The `while` loop of R151; the first argument bounds the iterations, and bitlength(e) of them
suffice. -/
def modpowLoop (m : Nat) : Nat → Nat → Nat → Nat → Nat
  | 0, r, _, _ => r
  | k + 1, r, b, e =>
    if e = 0 then r
    else modpowLoop m k (if e % 2 = 1 then mulmod r b m else r) (mulmod b b m) (e / 2)

/-- The number of bits of e, the iterations of R151's loop; 0 for 0. -/
def bitLength (e : Nat) : Nat := if e = 0 then 0 else e.log2 + 1

/-- The result function `modpow(b, e, m)`, square and multiply from the least significant bit
(R151). -/
def modpow (b e m : Nat) : Nat := modpowLoop m (bitLength e) (1 % m) (b % m) e

/-- MODEXP: INVMOD on a zero modulus, else the power modulo it; no flag (R152). -/
def execModexp (rd ra rb rc : Reg) (s : State) : Host.Outcome State Fault Refusal :=
  if s.reg rc = 0 then .next (s.errorCompletion .invmod)
  else .next (s.setReg rd (modpow (s.reg ra) (s.reg rb) (s.reg rc))).succeed

end Sys2Proof.Machine
end

