-- ==== Sys2Proof/Machine/Primality.lean ====
section
/-! DEFINITION. The Miller-Rabin primality tester (44_primality.md). -/

namespace Sys2Proof.Machine

/-- The three verdicts of the screening (R181). -/
inductive Screen where
  | composite | prime | test
  deriving DecidableEq, Repr

/-- Screening before any round (R181). -/
def screen (n : Nat) : Screen :=
  if n < 2 then .composite
  else if n = 2 ∨ n = 3 then .prime
  else if n % 2 = 0 then .composite
  else .test

/-- Halve while even, counting: (s, d) with 2^s · d the number given; the first argument bounds the
halvings. -/
def halve : Nat → Nat → Nat × Nat
  | 0, d => (0, d)
  | k + 1, d => if d % 2 = 0 then ((halve k (d / 2)).1 + 1, (halve k (d / 2)).2) else (0, d)

/-- `decompose(n)`: n - 1 = 2^s · d with d odd (R181). -/
def decompose (n : Nat) : Nat × Nat := halve (bitLength (n - 1)) (n - 1)

/-- The `repeat` part of a round, with so many squarings left; true is PASS (R182). -/
def squarings (n : Nat) : Nat → Nat → Bool
  | 0, _ => false
  | k + 1, x =>
    if mulmod x x n = n - 1 then true
    else if mulmod x x n = 1 then false
    else squarings n k (mulmod x x n)

/-- One witness round for n with `screen n = test`; true is PASS (R182). -/
def mrRound (n a : Nat) : Bool :=
  if n ≤ a then true
  else if modpow a (decompose n).2 n = 1 ∨ modpow a (decompose n).2 n = n - 1 then true
  else squarings n ((decompose n).1 - 1) (modpow a (decompose n).2 n)

/-- PRIME's fixed base list (00_scope.md R8 `WITNESSES`). -/
def witnesses : List Nat := [2, 3, 5, 7, 11]

/-- The verdict function of the document (R183). -/
def isProbablePrime (n : Nat) : Bool :=
  match screen n with
  | .composite => false
  | .prime => true
  | .test => witnesses.all (mrRound n)

/-- The verdict of one MRROUND with a witness a ≥ 2 (R185). -/
def roundVerdict (n a : Nat) : Bool :=
  match screen n with
  | .composite => false
  | .prime => true
  | .test => mrRound n a

/-- PRIME: flag P only (R184). -/
def execPrime (ra : Reg) (s : State) : Host.Outcome State Fault Refusal :=
  .next (s.setFlags (s.flags.ofVerdict (isProbablePrime (s.reg ra)))).succeed

/-- MRROUND: RANGE on a witness below 2, before the screening; else flag P only (R185). -/
def execMrround (ra rb : Reg) (s : State) : Host.Outcome State Fault Refusal :=
  if s.reg rb < 2 then .next (s.errorCompletion .range)
  else .next (s.setFlags (s.flags.ofVerdict (roundVerdict (s.reg ra) (s.reg rb)))).succeed

end Sys2Proof.Machine
end

