-- ==== Sys2Proof/Machine/System.lean ====
section
/-! DEFINITION. The system family: NOP (45_system.md). -/

namespace Sys2Proof.Machine

/-- NOP writes no register and no flag and goes through the whole lifecycle (45_system.md R200). -/
def execNop (s : State) : Host.Outcome State Fault Refusal := .next s.succeed

end Sys2Proof.Machine
end

