-- ==== Sys2Proof/Machine/Dispatch.lean ====
section
/-! DEFINITION. One arm for each command: its completion step (10_state.md R44, R45). -/

namespace Sys2Proof.Machine

def exec (i : Instr) (s : State) : Host.Outcome State Fault Refusal :=
  match i with
  | .nop => Sys2Proof.Machine.execNop s
  | .ldi rd imm => Sys2Proof.Machine.execLdi rd imm s
  | .mov rd ra => Sys2Proof.Machine.execMov rd ra s
  | .add rd ra rb => Sys2Proof.Machine.execAdd rd ra rb s
  | .sub rd ra rb => Sys2Proof.Machine.execSub rd ra rb s
  | .cmp ra rb => Sys2Proof.Machine.execCmp ra rb s
  | .modmul rd ra rb rc => Sys2Proof.Machine.execModmul rd ra rb rc s
  | .modexp rd ra rb rc => Sys2Proof.Machine.execModexp rd ra rb rc s
  | .egcd rd ra rb rc re => Sys2Proof.Machine.execEgcd rd ra rb rc re s
  | .modinv rd ra rc => Sys2Proof.Machine.execModinv rd ra rc s
  | .prime ra => Sys2Proof.Machine.execPrime ra s
  | .mrround ra rb => Sys2Proof.Machine.execMrround ra rb s

end Sys2Proof.Machine
end

