-- ==== Sys2Proof/Machine/Engine.lean ====
section
/-! DEFINITION. The engine's completion step and the four kinds of step of the transition system
(10_state.md R44, R45, R49). -/

namespace Sys2Proof.Machine

/-- Completion of the command word in flight: ILLEGAL if it selects no row, else the command's own
completion (10_state.md R44, R45). -/
def complete (s : State) : Host.Outcome State Fault Refusal :=
  match decode s.cmdr with
  | .ok i => exec i s
  | .error _ => .next (s.errorCompletion .illegal)

/-- The engine's turn: it has a step only while BUSY (10_state.md R49). -/
def engineTurn (s : State) : Host.Outcome State Fault Refusal :=
  if s.busy then complete s else .next s

/-- One step of 10_state.md R49. -/
def takeTurn (t : Turn) (s : State) : Host.Outcome State Fault Refusal :=
  match t with
  | .transaction tr => .next (transact tr s)
  | .completion => engineTurn s
  | .pinReset => .next s.pinReset

/-- The next step. When nothing more is planned, the command in flight completes (weak fairness,
10_state.md R49), and an idle block keeps its state (60_exceptions.md R260). DESIGN CHOICE, log
entry 2. -/
def advance (s : State) : Host.Outcome State Fault Refusal :=
  match s.turns with
  | [] => engineTurn s
  | t :: rest => takeTurn t { s with turns := rest }

/-- The command word `w` accepted (10_state.md R42) with its completion as the next step. -/
def State.inFlight (s : State) (w : Word) : State :=
  { s.accept w with turns := .completion :: s.turns }

end Sys2Proof.Machine
end

