-- ==== Sys2Proof/Machine/Step.lean ====
section
/-! DEFINITION. One step of the machine, and how a command word is placed before it. -/

namespace Sys2Proof.Machine

/-- One step (10_state.md R49). -/
def step (s : State) : Host.Outcome State Fault Refusal := advance s

/-- The state in which the very next step runs the command of the word: it is in flight, as after
the host's write to CMD (10_state.md R42; log entry 3), and its completion comes next. -/
def State.withFetchWord (s : State) (nbits w : Nat) : State :=
  s.inFlight (BitVec.ofNat 32 (w % 2 ^ nbits))

end Sys2Proof.Machine
end

