-- ==== Sys2Proof/Machine/HostSoftware.lean ====
section
/-! DEFINITION. The surrounding software of 50_host_software.md and the pseudo-instructions and
directives of 30_encoding.md, as plain functions. It is outside the block (00_scope.md R6; log entry 5): `step` does
not use this file. -/

namespace Sys2Proof.Machine

/-- `CLR xd` (30_encoding.md R102). -/
def clr (rd : Reg) : Instr := .ldi rd 0

/-- `SQRM xd, xa, xm` (30_encoding.md R102). -/
def sqrm (rd ra rm : Reg) : Instr := .modmul rd ra ra rm

/-- `WAIT`: so many polls that find BUSY, the completion, and the poll that finds it gone
(30_encoding.md R103). -/
def wait (polls : Nat) : List Turn :=
  List.replicate polls (.transaction (.read 0x00C .word)) ++
    [.completion, .transaction (.read 0x00C .word)]

/-- A command line of a program: the CMD write, then WAIT (30_encoding.md R103). -/
def commandLine (w : Word) (polls : Nat) : List Turn :=
  .transaction (.write 0x010 .word w) :: wait polls

/-- A value that an operand register can hold; a program that needs to write another one is not
expressible (00_scope.md R8, U5 of 93_implementation_defined.md). -/
abbrev fits (c : Config) (v : Nat) : Prop := v < 2 ^ c.width

/-- `WRX xr, value`: all LIMBS limbs, the least significant first (30_encoding.md R103); none when the
value does not fit. -/
def writeX (c : Config) (r : Reg) (v : Nat) : Option (List Turn) :=
  if fits c v then
    some ((List.range c.limbs).map fun i =>
      .transaction (.write (windowAddr r i) .word (limb v i)))
  else none

/-- `RDX xr` (30_encoding.md R103). -/
def readX (c : Config) (r : Reg) : List Turn :=
  (List.range c.limbs).map fun i => .transaction (.read (windowAddr r i) .word)

/-- `RDFLAGS` and `RDSTATUS` (30_encoding.md R103). -/
def readFlags : List Turn := [.transaction (.read 0x014 .word)]
/-- See `readFlags`. -/
def readStatus : List Turn := [.transaction (.read 0x00C .word)]

/-- Errors of the host's functions (50_host_software.md R227). `InvalidSeed` is none of them: it is
corrected in `prngInit` and never surfaced. The first four are the document's; the last two are the
model's own (DESIGN CHOICE, log entry 17), since the document lists no further variants of
`KeyGenError` and `CipherError` (U11 of 93_implementation_defined.md). -/
inductive HostError where
  | noModularInverse
  | messageTooLarge
  | primeSearchExhausted
  | invalidModulus
  /-- Every q drawn equalled p until the redraws were used up (R220 a). -/
  | equalPrimes
  /-- Refused: a bit count that the document leaves open (U9), or a value or a key size that the
  registers do not hold (R219, U5). -/
  | outsideModel
  deriving DecidableEq, Repr

/-- The document's name of a completion code, where it has one (60_exceptions.md R241, R227). -/
def HostError.ofCode : ErrCode → Option HostError
  | .ok => none
  | .illegal => none
  | .invmod => some .invalidModulus
  | .noinv => some .noModularInverse
  | .range => none

/-- `mod_pow(base, exponent, modulus)`: one MODEXP, its code 2 returned to the caller
(50_host_software.md R232, R227, 42_modexp.md R152). -/
def modPow (b e m : Nat) : Except HostError Nat :=
  if m = 0 then .error .invalidModulus else .ok (modpow b e m)

/-- `modular_inverse(a, m)`: one MODINV, its codes 2 and 3 returned to the caller
(50_host_software.md R232, R227, 43_egcd_modinv.md R165). -/
def modularInverse (a m : Nat) : Except HostError Nat :=
  if m = 0 then .error .invalidModulus
  else match modInverse a m with
    | none => .error .noModularInverse
    | some v => .ok v

/-- PRNG state from a seed; zero is remapped to 1 (R211). -/
def prngInit (seed : Nat) : BitVec 64 :=
  if BitVec.ofNat 64 seed = 0 then 1 else BitVec.ofNat 64 seed

/-- The three shift-xor mixes of a PRNG step: the new state (R212). -/
def prngState (s : BitVec 64) : BitVec 64 :=
  let s := s ^^^ (s >>> 12)
  let s := s ^^^ (s <<< 25)
  s ^^^ (s >>> 27)

/-- The word a PRNG step puts out, from the new state (R212; the reading G4 of
93_implementation_defined.md). -/
def prngWord (s : BitVec 64) : BitVec 64 := s * 2685821657736338717

/-- The byte that a draw contributes: the low byte of the output word (R213). -/
def lowByte (s : BitVec 64) : Nat := (prngWord s).toNat % 256

/-- Low bytes of so many draws, the first the most significant, after the value v (R213). -/
def drawBytes : Nat → BitVec 64 → Nat → BitVec 64 × Nat
  | 0, s, v => (s, v)
  | k + 1, s, v => drawBytes k (prngState s) (lowByte (prngState s) + 256 * v)

/-- `draw_bits(state, n)` for n a positive multiple of 8; the document leaves other n open and they
are outside the model (R213, U9 of 93_implementation_defined.md). -/
def drawBits (s : BitVec 64) (n : Nat) : Option (BitVec 64 × Nat) :=
  if n % 8 = 0 ∧ 0 < n then
    some ((drawBytes (n / 8) s 0).1, (drawBytes (n / 8) s 0).2 ||| 2 ^ (n - 1))
  else none

/-- The host's attempt counters (50_host_software.md R220): candidates drawn, q found equal to p, prime
pairs without an inverse. -/
structure Attempts where
  draws : Nat
  equalPrimes : Nat
  missingInverses : Nat
  deriving DecidableEq, Repr

/-- No attempt made yet. -/
def Attempts.zero : Attempts := ⟨0, 0, 0⟩

/-- What a search answers, success or failure: the result, the PRNG state handed back (R214) and the
counters (R220). -/
structure Search (α : Type) where
  result : Except HostError α
  state : BitVec 64
  attempts : Attempts

/-- The bounds that the document leaves open (R216, R220, U6): how often each loop may try again after
its first attempt. -/
structure RetryBounds where
  /-- Redraws of one prime search (R216). -/
  draws : Nat
  /-- Redraws of q when it equals p (R220 a). -/
  redraws : Nat
  /-- Fresh prime pairs when no inverse exists (R220 b). -/
  resamples : Nat
  deriving DecidableEq, Repr

/-- The loop of `generate(bits)`: odd candidates until PRIME says yes or the redraws are used up
(R215, R216). -/
def primeLoop (bits : Nat) : Nat → BitVec 64 → Attempts → Search Nat
  | retries, s, n =>
    match drawBits s bits with
    | none => ⟨.error .outsideModel, s, n⟩
    | some (s', c) =>
      let n' := { n with draws := n.draws + 1 }
      if isProbablePrime (c ||| 1) then ⟨.ok (c ||| 1), s', n'⟩
      else match retries with
        | 0 => ⟨.error .primeSearchExhausted, s', n'⟩
        | k + 1 => primeLoop bits k s' n'

/-- `generate(bits)`, which needs bits ≤ W; refused otherwise (R215, U5). -/
def generatePrime (c : Config) (bits retries : Nat) (s : BitVec 64) (n : Attempts) : Search Nat :=
  if bits ≤ c.width then primeLoop bits retries s n else ⟨.error .outsideModel, s, n⟩

/-- A prime other than p: q is drawn again, p is kept, as long as they are equal (R218, R220 a). -/
def otherPrime (c : Config) (bits draws p : Nat) : Nat → BitVec 64 → Attempts → Search Nat
  | redraws, s, n =>
    match generatePrime c bits draws s n with
    | ⟨.error e, s', n'⟩ => ⟨.error e, s', n'⟩
    | ⟨.ok q, s', n'⟩ =>
      if q = p then
        let n'' := { n' with equalPrimes := n'.equalPrimes + 1 }
        match redraws with
        | 0 => ⟨.error .equalPrimes, s', n''⟩
        | k + 1 => otherPrime c bits draws p k s' n''
      else ⟨.ok q, s', n'⟩

/-- A Keypair (R217). -/
structure Keypair where
  n : Nat
  e : Nat
  d : Nat
  deriving DecidableEq, Repr

/-- The fixed public exponent (R217). -/
def publicExponent : Nat := 65537

/-- The plain product of two half-width numbers, from the modular multiplier (R228). -/
def plainProduct (c : Config) (p q : Nat) : Nat := mulmod p q (2 ^ c.width - 1)

/-- The keypair of two primes, as the block's commands give it, or MODINV's failure (R218). -/
def keypairOf (c : Config) (p q : Nat) : Except HostError Keypair :=
  match modularInverse publicExponent (plainProduct c (p - 1) (q - 1)) with
  | .error e => .error e
  | .ok d => .ok ⟨plainProduct c p q, publicExponent, d⟩

/-- The loop of `generate_keys(bits)`: fresh primes when no inverse exists, and `NoModularInverse` once
the resamplings are used up (R218, R220 b). -/
def keyLoop (c : Config) (bits : Nat) (b : RetryBounds) :
    Nat → BitVec 64 → Attempts → Search Keypair
  | resamples, s, n =>
    match generatePrime c bits b.draws s n with
    | ⟨.error e, s1, n1⟩ => ⟨.error e, s1, n1⟩
    | ⟨.ok p, s1, n1⟩ =>
      match otherPrime c bits b.draws p b.redraws s1 n1 with
      | ⟨.error e, s2, n2⟩ => ⟨.error e, s2, n2⟩
      | ⟨.ok q, s2, n2⟩ =>
        match keypairOf c p q with
        | .ok kp => ⟨.ok kp, s2, n2⟩
        | .error .noModularInverse =>
          let n3 := { n2 with missingInverses := n2.missingInverses + 1 }
          match resamples with
          | 0 => ⟨.error .noModularInverse, s2, n3⟩
          | k + 1 => keyLoop c bits b k s2 n3
        | .error e => ⟨.error e, s2, n2⟩

/-- `generate_keys(bits)`, which needs 2·bits ≤ W; refused otherwise (R219, U5). A prime search that is
used up, or a q that never differs from p, ends the generation with its own error and is not tried again
with fresh primes (DESIGN CHOICE, log entry 17). -/
def generateKeys (c : Config) (bits : Nat) (b : RetryBounds) (s : BitVec 64) : Search Keypair :=
  if 2 * bits ≤ c.width then keyLoop c bits b b.resamples s Attempts.zero
  else ⟨.error .outsideModel, s, Attempts.zero⟩

/-- A byte string as a big-endian unsigned integer (R222). -/
def messageInt (bytes : List (BitVec 8)) : Nat := bytes.foldl (fun m b => m * 256 + b.toNat) 0

/-- `encrypt`: refused when m ≥ n, else one MODEXP (R223). Every message too long for a register is
among those refused, since n fits one; keys that do not fit are refused as outside the model (U5). -/
def encryptMessage (c : Config) (bytes : List (BitVec 8)) (e n : Nat) : Except HostError Nat :=
  if ¬(fits c e ∧ fits c n) then .error .outsideModel
  else if n ≤ messageInt bytes then .error .messageTooLarge
  else modPow (messageInt bytes) e n

/-- k bytes of m, the most significant first (R225). -/
def toBytes (k m : Nat) : List (BitVec 8) :=
  (List.range k).map fun j => BitVec.ofNat 8 (m >>> (8 * (k - 1 - j)))

/-- `decrypt`: one MODEXP, serialised to the byte length of n (R224, R225). The document's signature
has no error result; that a zero modulus is answered with MODEXP's `InvalidModulus`, after the
propagation policy of R227, is the model's choice (DESIGN CHOICE, log entry 17), and so is that operands
which do not fit a register are refused (U5). -/
def decryptMessage (c : Config) (ciphertext d n : Nat) : Except HostError (List (BitVec 8)) :=
  if ¬(fits c ciphertext ∧ fits c d ∧ fits c n) then .error .outsideModel
  else match modPow ciphertext d n with
    | .error e => .error e
    | .ok m => .ok (toBytes ((bitLength n + 7) / 8) m)

end Sys2Proof.Machine
end

