-- ==== Sys2Proof/Machine/Port.lean ====
section
/-! DEFINITION. The clock-level port (20_memory.md R60 to R62, 70_reset_and_hazards.md R270) over the
transaction-level steps. `step` does not use it: a transaction-level model replaces it (R63). -/

namespace Sys2Proof.Machine

/-- The input pins sampled at a rising edge (20_memory.md R60). -/
structure Pins where
  rstN : Bool
  req : Bool
  we : Bool
  size : BitVec 2
  addr : Addr
  wdata : Word
  deriving DecidableEq, Repr

/-- The output pins (20_memory.md R60). -/
structure PortOut where
  rvalid : Bool
  rerr : Bool
  rdata : Word
  irq : Bool
  deriving DecidableEq, Repr

/-- The encoding of the `size` pins (20_memory.md R60). -/
def Size.ofPins (b : BitVec 2) : Size :=
  match b.toNat with
  | 0 => .byte
  | 1 => .half
  | 2 => .word
  | _ => .reserved

/-- The transaction that the pins present when `req = 1` (R60, R65). -/
def Pins.transaction (p : Pins) : Transaction :=
  if p.we then .write p.addr (Size.ofPins p.size) p.wdata else .read p.addr (Size.ofPins p.size)

/-- The output pins in the cycle after an edge (R60, R62, 10_state.md R38). R60 calls `rerr` valid only
while `rvalid = 1`; that it is 0 in the other cycles too, outside reset, is the model's choice (DESIGN
CHOICE, log entry 6). -/
def State.portOut (s : State) : PortOut :=
  match s.resp with
  | some r => ⟨true, r.resp == .error, r.data, s.irq⟩
  | none => ⟨false, false, 0, s.irq⟩

/-- One clock edge. While `rst_n = 0` the reset holds and `req` is ignored (R270). Otherwise the
transaction, if one is presented, is performed first, on the state just before the edge (R61); then, if
`elapsed` says that `LAT` cycles have passed since the acceptance of the command in flight, the
completion happens, unless a soft reset on this edge has abandoned the command (10_state.md R46).
Without a transaction `rvalid` is 0 (R62). A command accepted on this very edge does not complete on
it, since `LAT ≥ 1` (00_scope.md R8). -/
def clockEdge (p : Pins) (elapsed : Bool) (s : State) : Host.Outcome State Fault Refusal :=
  if p.rstN then
    let s' := if p.req then transact p.transaction s else { s with resp := none }
    if elapsed && s.busy && s'.busy then complete s' else .next s'
  else .next s.pinReset

/-- The transaction-level steps that such an edge stands for (10_state.md R46, R49). -/
def edgeTurns (p : Pins) (elapsed : Bool) (s : State) : List Turn :=
  if p.rstN then
    (if p.req then [.transaction p.transaction] else []) ++
      (if elapsed && s.busy then [.completion] else [])
  else [.pinReset]

end Sys2Proof.Machine
end

