-- ==== Sys2Proof/Safety.lean ====
section
/-! DEFINITION. The terms in which claims are made: the invariant of the state, the end of a run and
when it went right, what a completion leaves behind, and which registers a command reads and writes. -/

namespace Sys2Proof.Machine

/-- The invariant: a legal instance (00_scope.md R8), every operand register in [0, 2^W)
(10_state.md R21), BUSY and DONE never both 1 and ERRC ≠ 0 only with DONE (R33), and an ERROR
response carries data 0 (20_memory.md R70). -/
structure State.Inv (s : State) : Prop where
  legal : s.cfg.legal
  inRange : ∀ r, s.reg r < 2 ^ s.width
  busyDone : ¬(s.busy = true ∧ s.done = true)
  errDone : s.errc ≠ .ok → s.done = true
  errorData : ∀ a, s.resp = some a → a.resp = .error → a.data = 0

/-- A run is over: the host has nothing more to do and no command is in flight (45_system.md R205). -/
def State.runOver (s : State) : Prop := s.turns = [] ∧ s.busy = false

/-- The run kept the rule that software must follow (70_reset_and_hazards.md R277, R278). -/
def State.wentRight (s : State) : Prop := s.istat &&& hazBit = 0

/-- Every piece of architectural state at its reset value, STATUS and the pin with it, and the two
constants as they always read (10_state.md R48). -/
structure AtReset (t : State) : Prop where
  x : ∀ r, t.reg r = 0
  flags : t.flags = ⟨false, false, false, false, false⟩
  busy : t.busy = false
  done : t.done = false
  errc : t.errc = .ok
  status : t.statusWord = 0
  cmdr : t.cmdr = 0
  ien : t.ien = 0
  istat : t.istat = 0
  irq : t.irq = false
  idConst : memRead 0x000 .word t = (⟨.okay, 0x44435201⟩, t)
  cfgConst : memRead 0x004 .word t = (⟨.okay, BitVec.ofNat 32 (0x1000 + t.cfg.limbs)⟩, t)

/-- What a completion step leaves alone whatever the command (10_state.md R44). -/
structure SameControl (s t : State) : Prop where
  cfg : t.cfg = s.cfg
  cmdr : t.cmdr = s.cmdr
  ien : t.ien = s.ien
  resp : t.resp = s.resp
  turns : t.turns = s.turns

/-- The pending bits a completion with code e adds (10_state.md R44). -/
def completionBits (e : ErrCode) : BitVec 3 :=
  match e with
  | .ok => 0b001#3
  | .illegal => 0b011#3
  | .invmod => 0b011#3
  | .noinv => 0b011#3
  | .range => 0b011#3

/-- From s, a completion with code e led to t, as far as STATUS, ISTAT and the control state go
(10_state.md R44). -/
structure EndedWith (e : ErrCode) (s t : State) : Prop where
  busy : t.busy = false
  done : t.done = true
  errc : t.errc = e
  istat : t.istat = s.istat ||| completionBits e
  control : SameControl s t

/-- No operand register was written. -/
def SameRegs (s t : State) : Prop := ∀ r, t.reg r = s.reg r

/-- No operand register but those listed was written. -/
def SameRegsBut (l : List Reg) (s t : State) : Prop := ∀ r, r ∉ l → t.reg r = s.reg r

/-- The command completes with error e and writes no register and no flag (60_exceptions.md R243). -/
def FailsWith (e : ErrCode) (i : Instr) (s : State) : Prop :=
  ∃ t, exec i s = .next t ∧ EndedWith e s t ∧ SameRegs s t ∧ t.flags = s.flags

/-- Column `dests` of the opcode table (30_encoding.md R96). -/
def dests : Instr → List Reg
  | .nop => []
  | .ldi rd _ => [rd]
  | .mov rd _ => [rd]
  | .add rd _ _ => [rd]
  | .sub rd _ _ => [rd]
  | .cmp _ _ => []
  | .modmul rd _ _ _ => [rd]
  | .modexp rd _ _ _ => [rd]
  | .egcd rd _ _ rc re => [rd, rc, re]
  | .modinv rd _ _ => [rd]
  | .prime _ => []
  | .mrround _ _ => []

/-- Column `sources` of the opcode table (30_encoding.md R96). -/
def sources : Instr → List Reg
  | .nop => []
  | .ldi _ _ => []
  | .mov _ ra => [ra]
  | .add _ ra rb => [ra, rb]
  | .sub _ ra rb => [ra, rb]
  | .cmp ra rb => [ra, rb]
  | .modmul _ ra rb rc => [ra, rb, rc]
  | .modexp _ ra rb rc => [ra, rb, rc]
  | .egcd _ ra rb _ _ => [ra, rb]
  | .modinv _ ra rc => [ra, rc]
  | .prime ra => [ra]
  | .mrround ra rb => [ra, rb]

/-- The rows of 10_state.md R26 with Z and C written. -/
def writesZC : Instr → Bool
  | .nop => false
  | .ldi _ _ => false
  | .mov _ _ => false
  | .add _ _ _ => true
  | .sub _ _ _ => true
  | .cmp _ _ => true
  | .modmul _ _ _ _ => false
  | .modexp _ _ _ _ => false
  | .egcd _ _ _ _ _ => false
  | .modinv _ _ _ => false
  | .prime _ => false
  | .mrround _ _ => false

/-- The row of 10_state.md R26 with XNEG and YNEG written. -/
def writesSigns : Instr → Bool
  | .nop => false
  | .ldi _ _ => false
  | .mov _ _ => false
  | .add _ _ _ => false
  | .sub _ _ _ => false
  | .cmp _ _ => false
  | .modmul _ _ _ _ => false
  | .modexp _ _ _ _ => false
  | .egcd _ _ _ _ _ => true
  | .modinv _ _ _ => false
  | .prime _ => false
  | .mrround _ _ => false

/-- The row of 10_state.md R26 with P written. -/
def writesP : Instr → Bool
  | .nop => false
  | .ldi _ _ => false
  | .mov _ _ => false
  | .add _ _ _ => false
  | .sub _ _ _ => false
  | .cmp _ _ => false
  | .modmul _ _ _ _ => false
  | .modexp _ _ _ _ => false
  | .egcd _ _ _ _ _ => false
  | .modinv _ _ _ => false
  | .prime _ => true
  | .mrround _ _ => true

/-- Column `used fields` of the opcode table, as bit ranges (highest, lowest) (30_encoding.md R91, R93,
R96). -/
def usedFieldsOf : Command → List (Nat × Nat)
  | .nop => []
  | .ldi => [(23, 20), (19, 0)]
  | .mov => [(23, 20), (19, 16)]
  | .add => [(23, 20), (19, 16), (15, 12)]
  | .sub => [(23, 20), (19, 16), (15, 12)]
  | .cmp => [(19, 16), (15, 12)]
  | .modmul => [(23, 20), (19, 16), (15, 12), (11, 8)]
  | .modexp => [(23, 20), (19, 16), (15, 12), (11, 8)]
  | .egcd => [(23, 20), (19, 16), (15, 12), (11, 8), (7, 4)]
  | .modinv => [(23, 20), (19, 16), (11, 8)]
  | .prime => [(19, 16)]
  | .mrround => [(19, 16), (15, 12)]

/-- The words of command `i` are exactly the one word with the number w (30_encoding.md R101). -/
def EncodedAs (i : Instr) (w : Nat) : Prop := ∀ v : Word, decode v = .ok i ↔ v = BitVec.ofNat 32 w

/-- The engine's completion step comes next: nothing else is planned, or its turn is (10_state.md
R49). -/
def State.completesNext (s : State) : Prop :=
  s.busy = true ∧ (s.turns = [] ∨ ∃ rest, s.turns = .completion :: rest)

/-- The base a passes the Miller-Rabin condition for n, where n - 1 = 2^k · d with d odd
(44_primality.md R182). -/
def StrongPass (n a k d : Nat) : Prop :=
  n ≤ a ∨ a ^ d % n = 1 ∨ ∃ j, j < k ∧ a ^ (2 ^ j * d) % n = n - 1

/-- The soft reset among the transactions (10_state.md R47). -/
def Transaction.isSoftReset : Transaction → Bool
  | .read _ _ => false
  | .write a n v => wellFormedAccess a n && target a == .ctrlReg && v.getLsbD 0

/-- The moves that reset the block: the pin reset and a soft reset (10_state.md R47, R48). -/
def Turn.isReset : Turn → Bool
  | .transaction t => t.isSoftReset
  | .completion => false
  | .pinReset => true

end Sys2Proof.Machine
end

