-- ==== Sys2Proof/Certificates/Slice0/Obligations.lean ====
section
/-! DEFINITION. The statements for the provers. Each docstring names the rule of spec/ it formalises;
the terms `EndedWith`, `SameRegsBut`, `FailsWith`, `AtReset`, `EncodedAs` are in Sys2Proof/Safety.lean. -/

set_option autoImplicit false

open Sys2Proof Sys2Proof.Machine

/-! ## Reset and the invariant -/

/-- 10_state.md R47, R48: the state after reset, after a pin reset and after a soft reset, from every
state, BUSY or not. -/
def Obligations.ResetLeavesTheStatedValues : Prop :=
  AtReset State.reset ∧
  ∀ (s : State) (v : Word), v.getLsbD 0 = true →
    ∃ t u,
      step { s with turns := .pinReset :: s.turns } = .next t ∧ AtReset t ∧
      t.cfg = s.cfg ∧ t.turns = s.turns ∧ t.resp = none ∧
      step { s with turns := .transaction (.write 0x008 .word v) :: s.turns } = .next u ∧
      AtReset u ∧ u = { t with resp := some ⟨.okay, 0⟩ }

/-- The invariant at reset; its clauses are 00_scope.md R8, 10_state.md R21, R33, 20_memory.md R70. -/
def Obligations.InvariantHoldsAtReset : Prop := State.reset.Inv

/-- Every step keeps the invariant: in particular every result fits its register (43_egcd_modinv.md
R164 for EGCD's coefficients) and BUSY and DONE are never both 1 (10_state.md R33). -/
def Obligations.EveryStepKeepsTheInvariant : Prop :=
  ∀ s t : State, s.Inv → step s = .next t → t.Inv

/-- 00_scope.md R8, 10_state.md R31: the instance never changes. Each step uses up one planned move,
which is the model's own form of the total order of 10_state.md R49 (log entry 2). -/
def Obligations.StepKeepsTheInstance : Prop :=
  ∀ s t : State, step s = .next t → t.cfg = s.cfg ∧ t.turns = s.turns.tail

/-! ## Encoding -/

/-- 30_encoding.md R95: a row's mask has a 1 in every opcode bit and in every bit outside the fields the
row uses, and the decoder picks a row exactly when the word matches it under its mask; a word that
matches no row is refused. -/
def Obligations.DecoderFollowsMaskAndMatch : Prop :=
  (∀ (c : Command) (k : Nat), k < 32 →
    (c.mask.getLsbD k = true ↔ 24 ≤ k ∨ ∀ f ∈ usedFieldsOf c, ¬(f.2 ≤ k ∧ k ≤ f.1))) ∧
  (∀ (w : Word) (c : Command), w &&& c.mask = c.pattern ↔ ∃ i, decode w = .ok i ∧ i.command = c) ∧
  ∀ w : Word, (∀ c : Command, w &&& c.mask ≠ c.pattern) → ∃ e, decode w = .error e

/-- 30_encoding.md R93, R101: decoding the word of a command gives it back, every operand at every
value. -/
def Obligations.DecodeOfEncodeIsTheCommand : Prop := ∀ i : Instr, decode (encode i) = .ok i

/-- 30_encoding.md R95, R101: a word that decodes is the word of that command; no bit is dropped. -/
def Obligations.EncodeOfDecodeIsTheWord : Prop :=
  ∀ (w : Word) (i : Instr), decode w = .ok i → encode i = w

/-- 30_encoding.md R104: the five worked encodings. -/
def Obligations.EncodingExamplesDecode : Prop :=
  decode 0x01110001 = .ok (.ldi 1 65537) ∧ decode 0x30301200 = .ok (.modexp 3 0 1 2) ∧
  decode 0x40201340 = .ok (.egcd 2 0 1 3 4) ∧ decode 0x50050000 = .ok (.prime 5) ∧
  decode 0x12023000 = .ok (.cmp 2 3)

/-- 30_encoding.md R102: the two pseudo-instructions and their words. -/
def Obligations.PseudoInstructionsExpand : Prop :=
  ∀ d a m : Reg,
    clr d = .ldi d 0 ∧ encode (clr d) = BitVec.ofNat 32 (0x01000000 + d.val * 2 ^ 20) ∧
    sqrm d a m = .modmul d a a m ∧
    encode (sqrm d a m) = BitVec.ofNat 32
      (0x20000000 + d.val * 2 ^ 20 + a.val * 2 ^ 16 + a.val * 2 ^ 12 + m.val * 2 ^ 8)

/-- 30_encoding.md R98: every word is one of the twelve commands or ILLEGAL, and a word that matches no
row is accepted like any other and completes with ERRC = 1, writing no register and no flag. -/
def Obligations.IllegalWordIsAcceptedAndFails : Prop :=
  ∀ w : Word,
    (∃ i, decode w = .ok i ∧ w &&& i.command.mask = i.command.pattern) ∨
    (∀ c : Command, w &&& c.mask ≠ c.pattern) ∧
      ∀ (s : State) (rest : List Turn), s.busy = false →
        s.turns = .transaction (.write 0x010 .word w) :: .completion :: rest →
        ∃ t u, step s = .next t ∧ t.busy = true ∧ t.cmdr = w ∧ t.resp = some ⟨.okay, 0⟩ ∧
          step t = .next u ∧ EndedWith .illegal { t with turns := rest } u ∧
          SameRegs s u ∧ u.flags = s.flags

/-! ## Lifecycle and whole-machine rules -/

/-- 10_state.md R44, R45, R49: when the completion is next and the word in flight decodes, the step is
the command's own. -/
def Obligations.StepRunsTheDecodedCommand : Prop :=
  ∀ (s : State) (i : Instr), s.busy = true → decode s.cmdr = .ok i →
    (s.turns = [] → step s = exec i s) ∧
    (∀ rest, s.turns = .completion :: rest → step s = exec i { s with turns := rest })

/-- 10_state.md R42: acceptance, of every word. -/
def Obligations.AcceptanceStartsTheCommand : Prop :=
  ∀ (s : State) (v : Word) (rest : List Turn), s.busy = false →
    s.turns = .transaction (.write 0x010 .word v) :: rest →
    ∃ t, step s = .next t ∧ t.cmdr = v ∧ t.busy = true ∧ t.done = false ∧ t.errc = .ok ∧
      SameRegs s t ∧ t.flags = s.flags ∧ t.ien = s.ien ∧ t.istat = s.istat ∧ t.cfg = s.cfg ∧
      t.resp = some ⟨.okay, 0⟩ ∧ t.turns = rest

/-- 10_state.md R43: a CMD write while BUSY is dropped; there is no queue. -/
def Obligations.CmdWriteWhileBusyIsDropped : Prop :=
  ∀ (s : State) (v : Word) (rest : List Turn), s.busy = true →
    s.turns = .transaction (.write 0x010 .word v) :: rest →
    step s = .next { s with
      istat := s.istat ||| 0b100#3, resp := some ⟨.okay, 0⟩, turns := rest }

/-- 60_exceptions.md R243: an error completion, of a decoded command or of an illegal word, changes
exactly STATUS and two pending bits, and the next CMD write is then accepted and clears ERRC but not
ERR_IP. -/
def Obligations.ErrorCompletionWritesNothing : Prop :=
  ∀ s t : State, complete s = .next t → t.errc ≠ .ok →
    t = { s with busy := false, done := true, errc := t.errc, istat := s.istat ||| 0b011#3 } ∧
    ∀ v : Word, ∃ u, memWrite 0x010 .word v t = (⟨.okay, 0⟩, u) ∧ u.cmdr = v ∧ u.busy = true ∧
      u.errc = .ok ∧ u.istat = t.istat

/-- 10_state.md R26: which command writes which flag, and on success only. A flag that is written gets
a value that does not depend on what it held. -/
def Obligations.FlagsAreWrittenAsTabled : Prop :=
  ∀ (i : Instr) (s t : State), exec i s = .next t →
    (writesZC i = false ∨ t.errc ≠ .ok → t.flags.z = s.flags.z ∧ t.flags.c = s.flags.c) ∧
    (writesSigns i = false ∨ t.errc ≠ .ok →
      t.flags.xneg = s.flags.xneg ∧ t.flags.yneg = s.flags.yneg) ∧
    (writesP i = false ∨ t.errc ≠ .ok → t.flags.p = s.flags.p) ∧
    ∀ f : Flags, ∃ u, exec i { s with flags := f } = .next u ∧ u.errc = t.errc ∧
      (writesZC i = true ∧ t.errc = .ok → u.flags.z = t.flags.z ∧ u.flags.c = t.flags.c) ∧
      (writesSigns i = true ∧ t.errc = .ok →
        u.flags.xneg = t.flags.xneg ∧ u.flags.yneg = t.flags.yneg) ∧
      (writesP i = true ∧ t.errc = .ok → u.flags.p = t.flags.p)

/-- 10_state.md R27: no command reads a flag (whatever the flags hold, everything else comes out the
same), the host reads them at 0x014, and only a completion or a reset changes one. -/
def Obligations.FlagsAreOutputsOnly : Prop :=
  (∀ (i : Instr) (s : State) (f : Flags),
    ∃ t u, exec i s = .next t ∧ exec i { s with flags := f } = .next u ∧
      u = { t with flags := u.flags }) ∧
  (∀ s : State, ∃ d : Word, memRead 0x014 .word s = (⟨.okay, d⟩, s) ∧
    d.toNat = s.flags.z.toNat + 2 * s.flags.c.toNat + 4 * s.flags.xneg.toNat
      + 8 * s.flags.yneg.toNat + 16 * s.flags.p.toNat) ∧
  (∀ s t : State, step s = .next t → t.flags ≠ s.flags →
    s.completesNext ∨ (∃ rest, s.turns = .pinReset :: rest) ∨
    ∃ tr rest, s.turns = .transaction tr :: rest ∧ tr.isSoftReset = true) ∧
  State.reset.flags = ⟨false, false, false, false, false⟩

/-- 10_state.md R22, R44, 20_memory.md R67: an operand register changes only as a destination of the
completing command, by a limb write while idle, or by a reset. -/
def Obligations.RegistersChangeOnlyByTheirWriters : Prop :=
  ∀ (s t : State) (r : Reg), step s = .next t → t.reg r ≠ s.reg r →
    (s.completesNext ∧ ∃ i, decode s.cmdr = .ok i ∧ r ∈ dests i) ∨
    (s.busy = false ∧ ∃ a v rest, s.turns = .transaction (.write a .word v) :: rest ∧
      0x2000 ≤ a.toNat ∧ (a.toNat - 0x2000) / 0x200 = r.val) ∨
    (∃ rest, s.turns = .pinReset :: rest) ∨
    ∃ tr rest, s.turns = .transaction tr :: rest ∧ tr.isSoftReset = true

/-- 30_encoding.md R96 (columns sources and dests), 10_state.md R22: the outcome of a command depends
on its source registers and the width alone. -/
def Obligations.OutcomeDependsOnSourcesAlone : Prop :=
  ∀ (i : Instr) (s u : State), s.cfg = u.cfg → (∀ r ∈ sources i, s.reg r = u.reg r) →
    ∃ t v, exec i s = .next t ∧ exec i u = .next v ∧ t.errc = v.errc ∧
      (t.errc = .ok → (∀ r ∈ dests i, t.reg r = v.reg r) ∧
        (writesZC i = true → t.flags.z = v.flags.z ∧ t.flags.c = v.flags.c) ∧
        (writesSigns i = true → t.flags.xneg = v.flags.xneg ∧ t.flags.yneg = v.flags.yneg) ∧
        (writesP i = true → t.flags.p = v.flags.p))

/-- The frame of every command on the block's address space, seen through the model's read: outside
the windows of its destinations every address of the operand window reads as before (10_state.md R44,
30_encoding.md R96). The read before is taken with BUSY off, since the window is closed while BUSY. -/
def Obligations.WindowOutsideDestinationsIsUnchanged : Prop :=
  ∀ (i : Instr) (s t : State), exec i s = .next t →
    ∀ a : Addr, 0x2000 ≤ a.toNat → (∀ r ∈ dests i, (a.toNat - 0x2000) / 0x200 ≠ r.val) →
      (memRead a .word t).1 = (memRead a .word { s with busy := false }).1

/-- No step of any state stops, and the block is idle when the schedule is used up; and a command in
flight completes, with DONE set and the outcome of its own completion, whatever is planned short of a
reset, which would abandon it (10_state.md R44, R47, R49, 70_reset_and_hazards.md R281; the schedule is
log entry 2). -/
def Obligations.EveryCommandCompletes : Prop :=
  (∀ s : State, ∃ t : State,
    Sys2Proof.core.run (s.turns.length + 1) s = .next t ∧ t.busy = false ∧ t.turns = []) ∧
  ∀ s : State, s.busy = true → (∀ m ∈ s.turns, m.isReset = false) →
    ∃ (k : Nat) (t u : State), k ≤ s.turns.length + 1 ∧
      Sys2Proof.core.run k s = .next t ∧ complete s = .next u ∧
      t.busy = false ∧ t.done = true ∧ t.errc = u.errc ∧ t.cmdr = s.cmdr ∧
      SameRegs u t ∧ t.flags = u.flags ∧ t.istat.getLsbD 0 = true

/-- An idle block with nothing planned keeps its state (10_state.md R49, 60_exceptions.md R260; that
the model's step then answers the same state is log entry 2). -/
def Obligations.IdleBlockHoldsItsState : Prop :=
  ∀ s : State, s.busy = false → s.turns = [] → step s = .next s

/-- 10_state.md R44 (its derived remark): whatever the host does while a command is in flight, short
of a soft reset, the command completes with the same registers, flags and code. -/
def Obligations.CommandInFlightIsUndisturbed : Prop :=
  ∀ (s : State) (l : List Transaction) (rest : List Turn),
    s.busy = true → (∀ tr ∈ l, tr.isSoftReset = false) →
    s.turns = l.map Turn.transaction ++ .completion :: rest →
    ∃ t u : State, Sys2Proof.core.run (l.length + 1) s = .next t ∧ complete s = .next u ∧
      SameRegs u t ∧ t.flags = u.flags ∧ t.errc = u.errc ∧ t.cmdr = u.cmdr ∧
      t.busy = false ∧ t.done = true ∧ t.turns = rest

/-- 10_state.md R46: on one clock edge the transaction comes first and the completion second, and a
soft reset wins entirely. -/
def Obligations.ClockEdgeIsTransactionThenCompletion : Prop :=
  ∀ (p : Pins) (elapsed : Bool) (s : State),
    ∃ t u : State, clockEdge p elapsed s = .next t ∧
      Sys2Proof.core.run (edgeTurns p elapsed s).length
        { s with turns := edgeTurns p elapsed s ++ s.turns } = .next u ∧
      t = { u with resp := if p.rstN && !p.req then none else u.resp } ∧
      (p.rstN = true → p.req = true → p.transaction.isSoftReset = true →
        AtReset t ∧ t.resp = some ⟨.okay, 0⟩)

/-! ## Data movement, addition, subtraction, comparison -/

/-- 45_system.md R200: NOP goes through the whole lifecycle and writes nothing. -/
def Obligations.NopCompletesAndWritesNothing : Prop :=
  EncodedAs .nop 0 ∧ State.reset.cmdr = 0 ∧ State.reset.busy = false ∧
  (∀ s : State, ∃ t, exec .nop s = .next t ∧ EndedWith .ok s t ∧ SameRegs s t ∧
    t.flags = s.flags) ∧
  (∀ w : Word, slice w 31 24 = 0 → w ≠ 0 → decode w = .error .mustBeZero) ∧
  ∀ (s : State) (rest : List Turn), s.busy = false →
    s.turns = .transaction (.write 0x010 .word 0) :: .completion :: rest →
    ∃ t u, step s = .next t ∧ t.busy = true ∧ t.done = false ∧ t.errc = .ok ∧
      step t = .next u ∧ u.busy = false ∧ u.done = true ∧ u.errc = .ok ∧
      u.istat = s.istat ||| 0b001#3 ∧ SameRegs s u ∧ u.flags = s.flags

/-- 40_bigint_add_sub_cmp.md R121. -/
def Obligations.LdiLoadsTheImmediate : Prop :=
  ∀ (rd : Reg) (imm : BitVec 20) (s : State),
    EncodedAs (.ldi rd imm) (0x01000000 + rd.val * 2 ^ 20 + imm.toNat) ∧
    (∀ w : Word, slice w 31 24 = 0x01 → ∃ i, decode w = .ok i) ∧
    ∃ t, exec (.ldi rd imm) s = .next t ∧ EndedWith .ok s t ∧
      t.reg rd = imm.toNat ∧ SameRegsBut [rd] s t ∧ t.flags = s.flags

/-- 40_bigint_add_sub_cmp.md R122. -/
def Obligations.MovCopiesTheRegister : Prop :=
  ∀ (rd ra : Reg) (s : State),
    EncodedAs (.mov rd ra) (0x02000000 + rd.val * 2 ^ 20 + ra.val * 2 ^ 16) ∧
    ∃ t, exec (.mov rd ra) s = .next t ∧ EndedWith .ok s t ∧
      t.reg rd = s.reg ra ∧ SameRegsBut [rd] s t ∧ t.flags = s.flags

/-- 40_bigint_add_sub_cmp.md R125. -/
def Obligations.AddWritesWrappedSumAndCarry : Prop :=
  ∀ (rd ra rb : Reg) (s : State),
    EncodedAs (.add rd ra rb)
      (0x10000000 + rd.val * 2 ^ 20 + ra.val * 2 ^ 16 + rb.val * 2 ^ 12) ∧
    ∃ t, exec (.add rd ra rb) s = .next t ∧ EndedWith .ok s t ∧
      t.reg rd = (s.reg ra + s.reg rb) % 2 ^ s.width ∧ SameRegsBut [rd] s t ∧
      (t.flags.c = true ↔ 2 ^ s.width ≤ s.reg ra + s.reg rb) ∧
      (t.flags.z = true ↔ (s.reg ra + s.reg rb) % 2 ^ s.width = 0) ∧
      t.flags.xneg = s.flags.xneg ∧ t.flags.yneg = s.flags.yneg ∧ t.flags.p = s.flags.p

/-- 40_bigint_add_sub_cmp.md R126. -/
def Obligations.SubWritesWrappedDifferenceAndBorrow : Prop :=
  ∀ (rd ra rb : Reg) (s : State),
    EncodedAs (.sub rd ra rb)
      (0x11000000 + rd.val * 2 ^ 20 + ra.val * 2 ^ 16 + rb.val * 2 ^ 12) ∧
    ∃ t, exec (.sub rd ra rb) s = .next t ∧ EndedWith .ok s t ∧
      (t.reg rd : Int) = ((s.reg ra : Int) - s.reg rb) % 2 ^ s.width ∧ SameRegsBut [rd] s t ∧
      (t.flags.c = true ↔ s.reg ra < s.reg rb) ∧
      (t.flags.z = true ↔ (s.reg ra : Int) - s.reg rb = 0) ∧
      t.flags.xneg = s.flags.xneg ∧ t.flags.yneg = s.flags.yneg ∧ t.flags.p = s.flags.p

/-- 40_bigint_add_sub_cmp.md R127: CMP writes no register and sets the flags SUB would. -/
def Obligations.CmpSetsOrderFlags : Prop :=
  ∀ (ra rb : Reg) (s : State),
    EncodedAs (.cmp ra rb) (0x12000000 + ra.val * 2 ^ 16 + rb.val * 2 ^ 12) ∧
    ∃ t, exec (.cmp ra rb) s = .next t ∧ EndedWith .ok s t ∧ SameRegs s t ∧
      (t.flags.z = true ↔ s.reg ra = s.reg rb) ∧ (t.flags.c = true ↔ s.reg ra < s.reg rb) ∧
      ¬(t.flags.z = true ∧ t.flags.c = true) ∧
      t.flags.xneg = s.flags.xneg ∧ t.flags.yneg = s.flags.yneg ∧ t.flags.p = s.flags.p ∧
      ∀ (rd : Reg) (u : State), exec (.sub rd ra rb) s = .next u → u.flags = t.flags

/-- 40_bigint_add_sub_cmp.md R120: the exact sum and difference are recoverable from the register and
C, and reduction happened exactly when C is 1. -/
def Obligations.ExactResultIsRecoverable : Prop :=
  ∀ (rd ra rb : Reg) (s t u : State), s.Inv →
    exec (.add rd ra rb) s = .next t → exec (.sub rd ra rb) s = .next u →
    s.reg ra + s.reg rb ≤ 2 ^ (s.width + 1) - 2 ∧
    -(2 ^ s.width - 1 : Int) ≤ (s.reg ra : Int) - s.reg rb ∧
    (s.reg ra : Int) - s.reg rb ≤ 2 ^ s.width - 1 ∧
    s.reg ra + s.reg rb = t.reg rd + 2 ^ s.width * t.flags.c.toNat ∧
    (s.reg ra : Int) - s.reg rb = u.reg rd - 2 ^ s.width * u.flags.c.toNat ∧
    t.reg rd < 2 ^ s.width ∧ u.reg rd < 2 ^ s.width

/-- 40_bigint_add_sub_cmp.md R128 (b): SUB t, a, b then ADD u, t, b gives u = a whatever C was. The
register of b must survive the SUB. -/
def Obligations.SubThenAddRestoresTheMinuend : Prop :=
  ∀ (rt ru ra rb : Reg) (s : State), s.Inv → rt ≠ rb →
    ∃ t u, exec (.sub rt ra rb) s = .next t ∧ exec (.add ru rt rb) t = .next u ∧
      u.reg ru = s.reg ra

/-! ## Modular multiplication and exponentiation -/

/-- 41_modmul.md R142. -/
def Obligations.ModmulWritesTheProductResidue : Prop :=
  ∀ (rd ra rb rc : Reg) (s : State),
    EncodedAs (.modmul rd ra rb rc)
      (0x20000000 + rd.val * 2 ^ 20 + ra.val * 2 ^ 16 + rb.val * 2 ^ 12 + rc.val * 2 ^ 8) ∧
    (s.reg rc = 0 → FailsWith .invmod (.modmul rd ra rb rc) s) ∧
    (s.reg rc ≠ 0 → ∃ t, exec (.modmul rd ra rb rc) s = .next t ∧ EndedWith .ok s t ∧
      t.reg rd = s.reg ra * s.reg rb % s.reg rc ∧ SameRegsBut [rd] s t ∧ t.flags = s.flags)

/-- 42_modexp.md R152, with the power itself (R151): 0^0 = 1, every exponent, every modulus but 0. -/
def Obligations.ModexpWritesThePowerResidue : Prop :=
  ∀ (rd ra rb rc : Reg) (s : State),
    EncodedAs (.modexp rd ra rb rc)
      (0x30000000 + rd.val * 2 ^ 20 + ra.val * 2 ^ 16 + rb.val * 2 ^ 12 + rc.val * 2 ^ 8) ∧
    (s.reg rc = 0 → FailsWith .invmod (.modexp rd ra rb rc) s) ∧
    (s.reg rc ≠ 0 → ∃ t, exec (.modexp rd ra rb rc) s = .next t ∧ EndedWith .ok s t ∧
      t.reg rd = s.reg ra ^ s.reg rb % s.reg rc ∧ SameRegsBut [rd] s t ∧ t.flags = s.flags)

/-- 42_modexp.md R151 (its derived remark): the square-and-multiply loop computes the power. -/
def Obligations.SquareAndMultiplyIsThePower : Prop :=
  ∀ b e m : Nat, 0 < m → modpow b e m = b ^ e % m

/-- 41_modmul.md R141: the shift-add-reduce circuit, operands reduced by the shared divider, computes
the product residue in W iterations. -/
def Obligations.MultiplierCircuitIsMulmod : Prop :=
  ∀ width a b m : Nat, a < 2 ^ width → b < 2 ^ width → 0 < m → m < 2 ^ width →
    mulCircuit width a b m = a * b % m

/-- 43_egcd_modinv.md R166: the restoring divider computes quotient and remainder in W iterations. -/
def Obligations.DividerCircuitIsDivmod : Prop :=
  ∀ width u v : Nat, u < 2 ^ width → 0 < v → divCircuit width u v = (u / v, u % v)

/-- 50_host_software.md R228: with the modulus 2^W - 1, MODMUL gives the plain product of two
half-width numbers. -/
def Obligations.ModmulGivesPlainProduct : Prop :=
  ∀ (rd ra rb rc : Reg) (s : State), s.cfg.legal → s.reg rc = 2 ^ s.width - 1 →
    s.reg ra < 2 ^ (s.width / 2) → s.reg rb < 2 ^ (s.width / 2) →
    ∃ t, exec (.modmul rd ra rb rc) s = .next t ∧ EndedWith .ok s t ∧
      t.reg rd = s.reg ra * s.reg rb

/-! ## Extended Euclid and inverse -/

/-- 43_egcd_modinv.md R162: equal destinations are ILLEGAL and write nothing; otherwise the command
succeeds, whether or not a destination is a source. -/
def Obligations.EgcdDestinationsMustDiffer : Prop :=
  ∀ (rd ra rb rc re : Reg) (s : State),
    (rd = rc ∨ rd = re ∨ rc = re → FailsWith .illegal (.egcd rd ra rb rc re) s) ∧
    (rd ≠ rc → rd ≠ re → rc ≠ re →
      ∃ t, exec (.egcd rd ra rb rc re) s = .next t ∧ EndedWith .ok s t)

/-- 43_egcd_modinv.md R163, with the coefficients of the loop of R161 and the identity they satisfy;
destinations may be sources. -/
def Obligations.EgcdWritesGcdAndBezoutPair : Prop :=
  ∀ (rd ra rb rc re : Reg) (s : State), rd ≠ rc → rd ≠ re → rc ≠ re →
    EncodedAs (.egcd rd ra rb rc re)
      (0x40000000 + rd.val * 2 ^ 20 + ra.val * 2 ^ 16 + rb.val * 2 ^ 12 + rc.val * 2 ^ 8
        + re.val * 2 ^ 4) ∧
    ∃ (t : State) (x y : Int), exec (.egcd rd ra rb rc re) s = .next t ∧ EndedWith .ok s t ∧
      x = egcdX (s.reg ra) (s.reg rb) ∧ y = egcdY (s.reg ra) (s.reg rb) ∧
      t.reg rd = egcdG (s.reg ra) (s.reg rb) ∧
      t.reg rd = Nat.gcd (s.reg ra) (s.reg rb) ∧ (t.reg rc : Int) = |x| ∧ (t.reg re : Int) = |y| ∧
      s.reg ra * x + s.reg rb * y = t.reg rd ∧
      (t.flags.xneg = true ↔ x < 0) ∧ (t.flags.yneg = true ↔ y < 0) ∧
      t.flags.z = s.flags.z ∧ t.flags.c = s.flags.c ∧ t.flags.p = s.flags.p ∧
      SameRegsBut [rd, rc, re] s t

/-- 43_egcd_modinv.md R168: the trace of egcd(240, 46), row by row. -/
def Obligations.EgcdTraceOfTheExample : Prop :=
  let r0 := EgcdRow.start 240 46
  r0 = ⟨240, 46, 1, 0, 0, 1⟩ ∧
  r0.next = ⟨46, 10, 0, 1, 1, -5⟩ ∧
  r0.next.next = ⟨10, 6, 1, -4, -5, 21⟩ ∧
  r0.next.next.next = ⟨6, 4, -4, 5, 21, -26⟩ ∧
  r0.next.next.next.next = ⟨4, 2, 5, -9, -26, 47⟩ ∧
  r0.next.next.next.next.next = ⟨2, 0, -9, 23, 47, -120⟩ ∧
  egcdRow 240 46 = r0.next.next.next.next.next ∧
  egcdG 240 46 = 2 ∧ egcdX 240 46 = -9 ∧ egcdY 240 46 = 47 ∧ egcdIterations 46 r0 = 5 ∧
  (240 * (-9) + 46 * 47 : Int) = 2

/-- 43_egcd_modinv.md R161 (its derived remark): the loop ends with the gcd, gcd(0, 0) = 0, and a pair
of coefficients. -/
def Obligations.EuclidLoopGivesGcdAndBezout : Prop :=
  ∀ a b : Nat, (egcdRow a b).r = 0 ∧ egcdG a b = Nat.gcd a b ∧
    a * egcdX a b + b * egcdY a b = egcdG a b

/-- 43_egcd_modinv.md R164: the sizes of the coefficients (general knowledge, by the spec's own
mark). -/
def Obligations.BezoutCoefficientsAreSmall : Prop :=
  ∀ a b : Nat, (egcdX a b).natAbs ≤ max 1 (b / (2 * egcdG a b)) ∧
    (egcdY a b).natAbs ≤ max 1 (a / (2 * egcdG a b))

/-- 43_egcd_modinv.md R167: at most 2·W + 1 iterations. -/
def Obligations.EuclidLoopIterationBound : Prop :=
  ∀ width a b : Nat, a < 2 ^ width → b < 2 ^ width →
    egcdIterations b (EgcdRow.start a b) ≤ 2 * width + 1

/-- 43_egcd_modinv.md R165: INVMOD before NOINV, else the inverse in [0, m), which the loop's x gives
and which its product with a identifies. -/
def Obligations.ModinvWritesTheInverse : Prop :=
  ∀ (rd ra rc : Reg) (s : State),
    EncodedAs (.modinv rd ra rc) (0x41000000 + rd.val * 2 ^ 20 + ra.val * 2 ^ 16 + rc.val * 2 ^ 8) ∧
    (s.reg rc = 0 → FailsWith .invmod (.modinv rd ra rc) s) ∧
    (s.reg rc ≠ 0 → Nat.gcd (s.reg ra) (s.reg rc) ≠ 1 → FailsWith .noinv (.modinv rd ra rc) s) ∧
    (s.reg rc ≠ 0 → Nat.gcd (s.reg ra) (s.reg rc) = 1 →
      ∃ t, exec (.modinv rd ra rc) s = .next t ∧ EndedWith .ok s t ∧
        (t.reg rd : Int) = egcdX (s.reg ra) (s.reg rc) % s.reg rc ∧
        t.reg rd < s.reg rc ∧ s.reg ra * t.reg rd % s.reg rc = 1 % s.reg rc ∧
        SameRegsBut [rd] s t ∧ t.flags = s.flags)

/-! ## Primality -/

/-- 44_primality.md R181: the screening, and the one decomposition of n - 1. -/
def Obligations.ScreeningAndDecomposition : Prop :=
  (∀ n : Nat,
    (screen n = .prime ↔ n = 2 ∨ n = 3) ∧
    (screen n = .composite ↔ n < 2 ∨ (n ≠ 2 ∧ n % 2 = 0)) ∧
    (screen n = .test ↔ 5 ≤ n ∧ n % 2 = 1)) ∧
  ∀ n : Nat, screen n = .test →
    n - 1 = 2 ^ (decompose n).1 * (decompose n).2 ∧ (decompose n).2 % 2 = 1 ∧
    1 ≤ (decompose n).1 ∧ 1 ≤ (decompose n).2 ∧
    (decompose n).2 = (n - 1) >>> (decompose n).1 ∧
    (∀ k d : Nat, n - 1 = 2 ^ k * d → d % 2 = 1 → k = (decompose n).1 ∧ d = (decompose n).2) ∧
    ∀ width : Nat, n < 2 ^ width → (decompose n).1 ≤ width - 1

/-- 44_primality.md R184: PRIME sets P by the screening and, for odd n ≥ 5, the five witnesses of R183
under the condition of R182. -/
def Obligations.PrimeSetsPByFiveWitnesses : Prop :=
  ∀ (ra : Reg) (s : State),
    EncodedAs (.prime ra) (0x50000000 + ra.val * 2 ^ 16) ∧
    ∃ t, exec (.prime ra) s = .next t ∧ EndedWith .ok s t ∧ SameRegs s t ∧
      t.flags.z = s.flags.z ∧ t.flags.c = s.flags.c ∧ t.flags.xneg = s.flags.xneg ∧
      t.flags.yneg = s.flags.yneg ∧
      (s.reg ra < 2 → t.flags.p = false) ∧
      (s.reg ra = 2 ∨ s.reg ra = 3 → t.flags.p = true) ∧
      (2 < s.reg ra → s.reg ra % 2 = 0 → t.flags.p = false) ∧
      (∀ k d : Nat, 5 ≤ s.reg ra → s.reg ra - 1 = 2 ^ k * d → d % 2 = 1 → 1 ≤ k →
        (t.flags.p = true ↔ ∀ a ∈ [2, 3, 5, 7, 11], StrongPass (s.reg ra) a k d))

/-- 44_primality.md R185: RANGE on a witness 0 or 1 whatever n is, else the screening, else one round
under the condition of R182. -/
def Obligations.MrroundSetsPByOneWitness : Prop :=
  ∀ (ra rb : Reg) (s : State),
    EncodedAs (.mrround ra rb) (0x51000000 + ra.val * 2 ^ 16 + rb.val * 2 ^ 12) ∧
    (s.reg rb < 2 → FailsWith .range (.mrround ra rb) s) ∧
    (2 ≤ s.reg rb → ∃ t, exec (.mrround ra rb) s = .next t ∧ EndedWith .ok s t ∧ SameRegs s t ∧
      t.flags.z = s.flags.z ∧ t.flags.c = s.flags.c ∧ t.flags.xneg = s.flags.xneg ∧
      t.flags.yneg = s.flags.yneg ∧
      (s.reg ra < 2 → t.flags.p = false) ∧
      (s.reg ra = 2 ∨ s.reg ra = 3 → t.flags.p = true) ∧
      (2 < s.reg ra → s.reg ra % 2 = 0 → t.flags.p = false) ∧
      (∀ k d : Nat, 5 ≤ s.reg ra → s.reg ra - 1 = 2 ^ k * d → d % 2 = 1 → 1 ≤ k →
        (t.flags.p = true ↔ StrongPass (s.reg ra) (s.reg rb) k d)))

/-- 44_primality.md R187: P = 0 is always correct: PRIME, and MRROUND with any witness it takes, never
report a prime as composite. -/
def Obligations.PrimalityTestNeverRejectsAPrime : Prop :=
  ∀ (ra rb : Reg) (s : State), Nat.Prime (s.reg ra) →
    ∃ t, exec (.prime ra) s = .next t ∧ t.flags.p = true ∧
      (2 ≤ s.reg rb → ∃ u, exec (.mrround ra rb) s = .next u ∧ u.flags.p = true)

/-- 44_primality.md R187: a composite that PRIME reports as probably prime. -/
def Obligations.PrimeReportsTheKnownComposite : Prop :=
  2152302898747 = 6763 * 10627 * 29947 ∧
  ∀ (ra : Reg) (s : State), s.reg ra = 2152302898747 →
    ∃ t, exec (.prime ra) s = .next t ∧ t.flags.p = true

/-- 44_primality.md R186: PRIME's verdict is the AND of the five MRROUNDs. -/
def Obligations.PrimeIsTheAndOfFiveRounds : Prop :=
  ∀ (ra rb : Reg) (s t : State), ra ≠ rb → exec (.prime ra) s = .next t →
    (t.flags.p = true ↔ ∀ w ∈ [2, 3, 5, 7, 11],
      ∃ u, exec (.mrround ra rb) (s.setReg rb w) = .next u ∧ u.flags.p = true)

/-! ## The bus -/

/-- 20_memory.md R66: the whole table of reads, response, data and side effect. -/
def Obligations.ReadsAnswerAsTabled : Prop :=
  ∀ s : State,
    memRead 0x000 .word s = (⟨.okay, 0x44435201⟩, s) ∧
    memRead 0x004 .word s = (⟨.okay, BitVec.ofNat 32 (0x1000 + s.cfg.limbs)⟩, s) ∧
    memRead 0x008 .word s = (⟨.okay, 0⟩, s) ∧
    (∃ d : Word, memRead 0x00C .word s = (⟨.okay, d⟩, s) ∧
      d.toNat = s.busy.toNat + 2 * s.done.toNat + 16 * s.errc.bits.toNat) ∧
    memRead 0x010 .word s = (⟨.okay, s.cmdr⟩, s) ∧
    (∃ d : Word, memRead 0x014 .word s = (⟨.okay, d⟩, s) ∧
      d.toNat = s.flags.z.toNat + 2 * s.flags.c.toNat + 4 * s.flags.xneg.toNat
        + 8 * s.flags.yneg.toNat + 16 * s.flags.p.toNat) ∧
    (∃ d : Word, memRead 0x018 .word s = (⟨.okay, d⟩, s) ∧ d.toNat = s.ien.toNat) ∧
    (∃ d : Word, memRead 0x01C .word s = (⟨.okay, d⟩, s) ∧ d.toNat = s.istat.toNat) ∧
    ∀ (r : Reg) (i : Nat), i < 128 →
      let a := BitVec.ofNat 14 (0x2000 + 0x200 * r.val + 4 * i)
      (s.busy = false → i < s.cfg.limbs →
        memRead a .word s = (⟨.okay, BitVec.ofNat 32 (s.reg r / 2 ^ (32 * i))⟩, s)) ∧
      (s.busy = false → s.cfg.limbs ≤ i → memRead a .word s = (⟨.okay, 0⟩, s)) ∧
      (s.busy = true →
        memRead a .word s = (⟨.okay, 0⟩, { s with istat := s.istat ||| 0b100#3 }))

/-- 20_memory.md R67: the whole table of writes. The limb row says which limbs of which registers
change, the soft reset row that the state is the reset state of 10_state.md R48. -/
def Obligations.WritesActAsTabled : Prop :=
  ∀ (s : State) (v : Word),
    (∀ a ∈ ([0x000, 0x004, 0x00C, 0x014] : List Addr), memWrite a .word v s = (⟨.okay, 0⟩, s)) ∧
    (v.getLsbD 0 = false → memWrite 0x008 .word v s = (⟨.okay, 0⟩, s)) ∧
    (v.getLsbD 0 = true → ∃ t, memWrite 0x008 .word v s = (⟨.okay, 0⟩, t) ∧ AtReset t) ∧
    (s.busy = false → memWrite 0x010 .word v s =
      (⟨.okay, 0⟩, { s with cmdr := v, busy := true, done := false, errc := .ok })) ∧
    (s.busy = true → memWrite 0x010 .word v s =
      (⟨.okay, 0⟩, { s with istat := s.istat ||| 0b100#3 })) ∧
    memWrite 0x018 .word v s = (⟨.okay, 0⟩, { s with ien := v.extractLsb' 0 3 }) ∧
    memWrite 0x01C .word v s =
      (⟨.okay, 0⟩, { s with istat := s.istat &&& ~~~(v.extractLsb' 0 3) }) ∧
    ∀ (r : Reg) (i : Nat), i < 128 →
      let a := BitVec.ofNat 14 (0x2000 + 0x200 * r.val + 4 * i)
      (s.busy = false → i < s.cfg.limbs →
        ∃ n, memWrite a .word v s = (⟨.okay, 0⟩, s.setReg r n) ∧
          ∀ j, limb n j = if j = i then v else limb (s.reg r) j) ∧
      (s.busy = false → s.cfg.limbs ≤ i → memWrite a .word v s = (⟨.okay, 0⟩, s)) ∧
      (s.busy = true →
        memWrite a .word v s = (⟨.okay, 0⟩, { s with istat := s.istat ||| 0b100#3 }))

/-- 20_memory.md R67, R68: after a limb write the window reads the limb back, and every other limb of
every register reads as before. -/
def Obligations.LimbWriteThenRead : Prop :=
  ∀ (s : State) (r r' : Reg) (i j : Nat) (v : Word),
    s.cfg.legal → s.busy = false → i < s.cfg.limbs → j < 128 →
    let a := BitVec.ofNat 14 (0x2000 + 0x200 * r.val + 4 * i)
    let b := BitVec.ofNat 14 (0x2000 + 0x200 * r'.val + 4 * j)
    (memRead b .word (memWrite a .word v s).2).1 =
      if r' = r ∧ j = i then ⟨.okay, v⟩ else (memRead b .word s).1

/-- 20_memory.md R68: a register is the sum of its limbs, the least significant at the lowest
address. -/
def Obligations.RegisterIsTheSumOfItsLimbs : Prop :=
  ∀ (s : State) (r : Reg), s.Inv → s.busy = false →
    ∑ i ∈ Finset.range s.cfg.limbs,
      (memRead (BitVec.ofNat 14 (0x2000 + 0x200 * r.val + 4 * i)) .word s).1.data.toNat
        * 2 ^ (32 * i) = s.reg r

/-- 20_memory.md R70: a malformed or unmapped transaction gets ERROR and has no effect, BUSY or not,
and ERROR is answered to nothing else. -/
def Obligations.BusErrorHasNoEffect : Prop :=
  ∀ (s : State) (a : Addr) (n : Size) (v : Word),
    (n ≠ .word ∨ a.toNat % 4 ≠ 0 ∨ (0x20 ≤ a.toNat ∧ a.toNat < 0x2000) →
      memRead a n s = (⟨.error, 0⟩, s) ∧ memWrite a n v s = (⟨.error, 0⟩, s)) ∧
    (¬(n ≠ .word ∨ a.toNat % 4 ≠ 0 ∨ (0x20 ≤ a.toNat ∧ a.toNat < 0x2000)) →
      (memRead a n s).1.resp = .okay ∧ (memWrite a n v s).1.resp = .okay)

/-- 70_reset_and_hazards.md R276: the hazard, what it does, that the other control registers, STATUS
among them, answer and act the same whether BUSY or not (a soft reset clears BUSY, nothing else touches
it, and STATUS shows it in bit 0), and that HAZ_IP is set by nothing else. -/
def Obligations.HazardIsTheWindowOrCmdWhileBusy : Prop :=
  (∀ (s : State) (a : Addr) (v : Word), s.busy = true → a.toNat % 4 = 0 →
    (0x2000 ≤ a.toNat → memRead a .word s = (⟨.okay, 0⟩, { s with istat := s.istat ||| 0b100#3 })) ∧
    (0x2000 ≤ a.toNat ∨ a = 0x010 →
      memWrite a .word v s = (⟨.okay, 0⟩, { s with istat := s.istat ||| 0b100#3 })) ∧
    memRead 0x010 .word s = (⟨.okay, s.cmdr⟩, s)) ∧
  (∀ (s : State) (a : Addr) (v : Word) (b : Bool), a.toNat < 0x20 → a.toNat % 4 = 0 → a ≠ 0x010 →
    (memRead a .word { s with busy := b }).2 = { s with busy := b } ∧
    (memRead a .word { s with busy := b }).1.resp = .okay ∧
    (a ≠ 0x00C → (memRead a .word { s with busy := b }).1 = (memRead a .word s).1) ∧
    (a = 0x00C → ∀ k, (memRead a .word { s with busy := b }).1.data.getLsbD k =
      if k = 0 then b else (memRead a .word s).1.data.getLsbD k) ∧
    (memWrite a .word v { s with busy := b }).1 = (memWrite a .word v s).1 ∧
    (memWrite a .word v { s with busy := b }).1.resp = .okay ∧
    (memWrite a .word v { s with busy := b }).2 =
      { (memWrite a .word v s).2 with
        busy := if a = 0x008 ∧ v.getLsbD 0 = true then false else b }) ∧
  ∀ s t : State, step s = .next t → s.istat.getLsbD 2 = false → t.istat.getLsbD 2 = true →
    s.busy = true ∧ ∃ a v rest, a.toNat % 4 = 0 ∧
      ((s.turns = .transaction (.read a .word) :: rest ∧ 0x2000 ≤ a.toNat) ∨
       (s.turns = .transaction (.write a .word v) :: rest ∧ (0x2000 ≤ a.toNat ∨ a = 0x010)))

/-- 10_state.md R37: pending bits are set by completions and hazards as stated, ISTAT is read and
written at any time, and only a write of 1 or a reset clears a bit. -/
def Obligations.PendingBitsAreSticky : Prop :=
  (∀ s t : State, complete s = .next t →
    t.istat.getLsbD 0 = true ∧ (t.errc ≠ .ok → t.istat.getLsbD 1 = true)) ∧
  (∀ (s : State) (a : Addr) (v : Word), s.busy = true → a.toNat % 4 = 0 →
    (0x2000 ≤ a.toNat → (memRead a .word s).2.istat.getLsbD 2 = true) ∧
    (0x2000 ≤ a.toNat ∨ a = 0x010 → (memWrite a .word v s).2.istat.getLsbD 2 = true)) ∧
  (∀ (s : State) (v : Word),
    memRead 0x01C .word s = (⟨.okay, 0#29 ++ s.istat⟩, s) ∧
    memWrite 0x01C .word v s =
      (⟨.okay, 0⟩, { s with istat := s.istat &&& ~~~(v.extractLsb' 0 3) })) ∧
  ∀ (s t : State) (k : Nat), step s = .next t → s.istat.getLsbD k = true →
    t.istat.getLsbD k = false →
    (∃ v rest, s.turns = .transaction (.write 0x01C .word v) :: rest ∧ v.getLsbD k = true ∧
      t.istat = s.istat &&& ~~~(v.extractLsb' 0 3)) ∨
    (∃ rest, s.turns = .pinReset :: rest) ∨
    ∃ tr rest, s.turns = .transaction tr :: rest ∧ tr.isSoftReset = true

/-- 10_state.md R38: the pin is 1 exactly while some pending bit is enabled. -/
def Obligations.IrqIsAnEnabledPendingBit : Prop :=
  ∀ s : State, s.portOut.irq = s.irq ∧
    (s.irq = true ↔ ∃ k, k < 3 ∧ s.ien.getLsbD k = true ∧ s.istat.getLsbD k = true)

/-! ## The surrounding software -/

/-- 50_host_software.md R233, R217: every keypair that key generation answers belongs to two distinct
numbers of the requested length that PRIME reports as probably prime; the keypair's n is their product
and e · d is 1 modulo (p - 1)(q - 1). -/
def Obligations.GeneratedKeysFitTheirPrimes : Prop :=
  ∀ (c : Config) (bits : Nat) (b : RetryBounds) (s : BitVec 64) (kp : Keypair),
    (generateKeys c bits b s).result = .ok kp →
    ∃ p q : Nat, isProbablePrime p = true ∧ isProbablePrime q = true ∧ p ≠ q ∧
      2 ^ (bits - 1) ≤ p ∧ p < 2 ^ bits ∧ 2 ^ (bits - 1) ≤ q ∧ q < 2 ^ bits ∧
      kp.n = p * q ∧ kp.e = 65537 ∧ kp.e * kp.d % ((p - 1) * (q - 1)) = 1 ∧
      kp.d < (p - 1) * (q - 1)
end

