-- ==== Sys2Proof/Laws/State.lean ====
section
/-! SUPPORT. What each update of the state does to each field, true by unfolding, so that no later
proof unfolds an update. -/

namespace Sys2Proof.Machine

@[simp] theorem State.setReg_cfg (s : State) (r : Reg) (v : Nat) :
    (s.setReg r v).cfg = s.cfg := rfl
@[simp] theorem State.setReg_x (s : State) (r : Reg) (v : Nat) :
    (s.setReg r v).x = s.x.set r v := rfl
@[simp] theorem State.setReg_flags (s : State) (r : Reg) (v : Nat) :
    (s.setReg r v).flags = s.flags := rfl
@[simp] theorem State.setReg_busy (s : State) (r : Reg) (v : Nat) :
    (s.setReg r v).busy = s.busy := rfl
@[simp] theorem State.setReg_done (s : State) (r : Reg) (v : Nat) :
    (s.setReg r v).done = s.done := rfl
@[simp] theorem State.setReg_errc (s : State) (r : Reg) (v : Nat) :
    (s.setReg r v).errc = s.errc := rfl
@[simp] theorem State.setReg_cmdr (s : State) (r : Reg) (v : Nat) :
    (s.setReg r v).cmdr = s.cmdr := rfl
@[simp] theorem State.setReg_ien (s : State) (r : Reg) (v : Nat) :
    (s.setReg r v).ien = s.ien := rfl
@[simp] theorem State.setReg_istat (s : State) (r : Reg) (v : Nat) :
    (s.setReg r v).istat = s.istat := rfl
@[simp] theorem State.setReg_resp (s : State) (r : Reg) (v : Nat) :
    (s.setReg r v).resp = s.resp := rfl
@[simp] theorem State.setReg_turns (s : State) (r : Reg) (v : Nat) :
    (s.setReg r v).turns = s.turns := rfl

@[simp] theorem State.setFlags_cfg (s : State) (f : Flags) :
    (s.setFlags f).cfg = s.cfg := rfl
@[simp] theorem State.setFlags_x (s : State) (f : Flags) :
    (s.setFlags f).x = s.x := rfl
@[simp] theorem State.setFlags_flags (s : State) (f : Flags) :
    (s.setFlags f).flags = f := rfl
@[simp] theorem State.setFlags_busy (s : State) (f : Flags) :
    (s.setFlags f).busy = s.busy := rfl
@[simp] theorem State.setFlags_done (s : State) (f : Flags) :
    (s.setFlags f).done = s.done := rfl
@[simp] theorem State.setFlags_errc (s : State) (f : Flags) :
    (s.setFlags f).errc = s.errc := rfl
@[simp] theorem State.setFlags_cmdr (s : State) (f : Flags) :
    (s.setFlags f).cmdr = s.cmdr := rfl
@[simp] theorem State.setFlags_ien (s : State) (f : Flags) :
    (s.setFlags f).ien = s.ien := rfl
@[simp] theorem State.setFlags_istat (s : State) (f : Flags) :
    (s.setFlags f).istat = s.istat := rfl
@[simp] theorem State.setFlags_resp (s : State) (f : Flags) :
    (s.setFlags f).resp = s.resp := rfl
@[simp] theorem State.setFlags_turns (s : State) (f : Flags) :
    (s.setFlags f).turns = s.turns := rfl

@[simp] theorem State.pend_cfg (s : State) (b : BitVec 3) :
    (s.pend b).cfg = s.cfg := rfl
@[simp] theorem State.pend_x (s : State) (b : BitVec 3) :
    (s.pend b).x = s.x := rfl
@[simp] theorem State.pend_flags (s : State) (b : BitVec 3) :
    (s.pend b).flags = s.flags := rfl
@[simp] theorem State.pend_busy (s : State) (b : BitVec 3) :
    (s.pend b).busy = s.busy := rfl
@[simp] theorem State.pend_done (s : State) (b : BitVec 3) :
    (s.pend b).done = s.done := rfl
@[simp] theorem State.pend_errc (s : State) (b : BitVec 3) :
    (s.pend b).errc = s.errc := rfl
@[simp] theorem State.pend_cmdr (s : State) (b : BitVec 3) :
    (s.pend b).cmdr = s.cmdr := rfl
@[simp] theorem State.pend_ien (s : State) (b : BitVec 3) :
    (s.pend b).ien = s.ien := rfl
@[simp] theorem State.pend_istat (s : State) (b : BitVec 3) :
    (s.pend b).istat = s.istat ||| b := rfl
@[simp] theorem State.pend_resp (s : State) (b : BitVec 3) :
    (s.pend b).resp = s.resp := rfl
@[simp] theorem State.pend_turns (s : State) (b : BitVec 3) :
    (s.pend b).turns = s.turns := rfl

@[simp] theorem State.hazard_cfg (s : State) :
    (s.hazard).cfg = s.cfg := rfl
@[simp] theorem State.hazard_x (s : State) :
    (s.hazard).x = s.x := rfl
@[simp] theorem State.hazard_flags (s : State) :
    (s.hazard).flags = s.flags := rfl
@[simp] theorem State.hazard_busy (s : State) :
    (s.hazard).busy = s.busy := rfl
@[simp] theorem State.hazard_done (s : State) :
    (s.hazard).done = s.done := rfl
@[simp] theorem State.hazard_errc (s : State) :
    (s.hazard).errc = s.errc := rfl
@[simp] theorem State.hazard_cmdr (s : State) :
    (s.hazard).cmdr = s.cmdr := rfl
@[simp] theorem State.hazard_ien (s : State) :
    (s.hazard).ien = s.ien := rfl
@[simp] theorem State.hazard_istat (s : State) :
    (s.hazard).istat = s.istat ||| hazBit := rfl
@[simp] theorem State.hazard_resp (s : State) :
    (s.hazard).resp = s.resp := rfl
@[simp] theorem State.hazard_turns (s : State) :
    (s.hazard).turns = s.turns := rfl

@[simp] theorem State.accept_cfg (s : State) (w : Word) :
    (s.accept w).cfg = s.cfg := rfl
@[simp] theorem State.accept_x (s : State) (w : Word) :
    (s.accept w).x = s.x := rfl
@[simp] theorem State.accept_flags (s : State) (w : Word) :
    (s.accept w).flags = s.flags := rfl
@[simp] theorem State.accept_busy (s : State) (w : Word) :
    (s.accept w).busy = true := rfl
@[simp] theorem State.accept_done (s : State) (w : Word) :
    (s.accept w).done = false := rfl
@[simp] theorem State.accept_errc (s : State) (w : Word) :
    (s.accept w).errc = .ok := rfl
@[simp] theorem State.accept_cmdr (s : State) (w : Word) :
    (s.accept w).cmdr = w := rfl
@[simp] theorem State.accept_ien (s : State) (w : Word) :
    (s.accept w).ien = s.ien := rfl
@[simp] theorem State.accept_istat (s : State) (w : Word) :
    (s.accept w).istat = s.istat := rfl
@[simp] theorem State.accept_resp (s : State) (w : Word) :
    (s.accept w).resp = s.resp := rfl
@[simp] theorem State.accept_turns (s : State) (w : Word) :
    (s.accept w).turns = s.turns := rfl

@[simp] theorem State.endCommand_cfg (s : State) :
    (s.endCommand).cfg = s.cfg := rfl
@[simp] theorem State.endCommand_x (s : State) :
    (s.endCommand).x = s.x := rfl
@[simp] theorem State.endCommand_flags (s : State) :
    (s.endCommand).flags = s.flags := rfl
@[simp] theorem State.endCommand_busy (s : State) :
    (s.endCommand).busy = false := rfl
@[simp] theorem State.endCommand_done (s : State) :
    (s.endCommand).done = true := rfl
@[simp] theorem State.endCommand_errc (s : State) :
    (s.endCommand).errc = s.errc := rfl
@[simp] theorem State.endCommand_cmdr (s : State) :
    (s.endCommand).cmdr = s.cmdr := rfl
@[simp] theorem State.endCommand_ien (s : State) :
    (s.endCommand).ien = s.ien := rfl
@[simp] theorem State.endCommand_istat (s : State) :
    (s.endCommand).istat = s.istat ||| doneBit := rfl
@[simp] theorem State.endCommand_resp (s : State) :
    (s.endCommand).resp = s.resp := rfl
@[simp] theorem State.endCommand_turns (s : State) :
    (s.endCommand).turns = s.turns := rfl

@[simp] theorem State.succeed_cfg (s : State) :
    (s.succeed).cfg = s.cfg := rfl
@[simp] theorem State.succeed_x (s : State) :
    (s.succeed).x = s.x := rfl
@[simp] theorem State.succeed_flags (s : State) :
    (s.succeed).flags = s.flags := rfl
@[simp] theorem State.succeed_busy (s : State) :
    (s.succeed).busy = false := rfl
@[simp] theorem State.succeed_done (s : State) :
    (s.succeed).done = true := rfl
@[simp] theorem State.succeed_errc (s : State) :
    (s.succeed).errc = .ok := rfl
@[simp] theorem State.succeed_cmdr (s : State) :
    (s.succeed).cmdr = s.cmdr := rfl
@[simp] theorem State.succeed_ien (s : State) :
    (s.succeed).ien = s.ien := rfl
@[simp] theorem State.succeed_istat (s : State) :
    (s.succeed).istat = s.istat ||| doneBit := rfl
@[simp] theorem State.succeed_resp (s : State) :
    (s.succeed).resp = s.resp := rfl
@[simp] theorem State.succeed_turns (s : State) :
    (s.succeed).turns = s.turns := rfl

@[simp] theorem State.errorCompletion_cfg (s : State) (e : ErrCode) :
    (s.errorCompletion e).cfg = s.cfg := rfl
@[simp] theorem State.errorCompletion_x (s : State) (e : ErrCode) :
    (s.errorCompletion e).x = s.x := rfl
@[simp] theorem State.errorCompletion_flags (s : State) (e : ErrCode) :
    (s.errorCompletion e).flags = s.flags := rfl
@[simp] theorem State.errorCompletion_busy (s : State) (e : ErrCode) :
    (s.errorCompletion e).busy = false := rfl
@[simp] theorem State.errorCompletion_done (s : State) (e : ErrCode) :
    (s.errorCompletion e).done = true := rfl
@[simp] theorem State.errorCompletion_errc (s : State) (e : ErrCode) :
    (s.errorCompletion e).errc = e := rfl
@[simp] theorem State.errorCompletion_cmdr (s : State) (e : ErrCode) :
    (s.errorCompletion e).cmdr = s.cmdr := rfl
@[simp] theorem State.errorCompletion_ien (s : State) (e : ErrCode) :
    (s.errorCompletion e).ien = s.ien := rfl
@[simp] theorem State.errorCompletion_istat (s : State) (e : ErrCode) :
    (s.errorCompletion e).istat = s.istat ||| doneBit ||| errBit := rfl
@[simp] theorem State.errorCompletion_resp (s : State) (e : ErrCode) :
    (s.errorCompletion e).resp = s.resp := rfl
@[simp] theorem State.errorCompletion_turns (s : State) (e : ErrCode) :
    (s.errorCompletion e).turns = s.turns := rfl

@[simp] theorem State.blockReset_cfg (s : State) :
    (s.blockReset).cfg = s.cfg := rfl
@[simp] theorem State.blockReset_x (s : State) :
    (s.blockReset).x = Vector.replicate 16 0 := rfl
@[simp] theorem State.blockReset_flags (s : State) :
    (s.blockReset).flags = Flags.zero := rfl
@[simp] theorem State.blockReset_busy (s : State) :
    (s.blockReset).busy = false := rfl
@[simp] theorem State.blockReset_done (s : State) :
    (s.blockReset).done = false := rfl
@[simp] theorem State.blockReset_errc (s : State) :
    (s.blockReset).errc = .ok := rfl
@[simp] theorem State.blockReset_cmdr (s : State) :
    (s.blockReset).cmdr = 0 := rfl
@[simp] theorem State.blockReset_ien (s : State) :
    (s.blockReset).ien = 0 := rfl
@[simp] theorem State.blockReset_istat (s : State) :
    (s.blockReset).istat = 0 := rfl
@[simp] theorem State.blockReset_resp (s : State) :
    (s.blockReset).resp = s.resp := rfl
@[simp] theorem State.blockReset_turns (s : State) :
    (s.blockReset).turns = s.turns := rfl

@[simp] theorem State.pinReset_cfg (s : State) :
    (s.pinReset).cfg = s.cfg := rfl
@[simp] theorem State.pinReset_x (s : State) :
    (s.pinReset).x = Vector.replicate 16 0 := rfl
@[simp] theorem State.pinReset_flags (s : State) :
    (s.pinReset).flags = Flags.zero := rfl
@[simp] theorem State.pinReset_busy (s : State) :
    (s.pinReset).busy = false := rfl
@[simp] theorem State.pinReset_done (s : State) :
    (s.pinReset).done = false := rfl
@[simp] theorem State.pinReset_errc (s : State) :
    (s.pinReset).errc = .ok := rfl
@[simp] theorem State.pinReset_cmdr (s : State) :
    (s.pinReset).cmdr = 0 := rfl
@[simp] theorem State.pinReset_ien (s : State) :
    (s.pinReset).ien = 0 := rfl
@[simp] theorem State.pinReset_istat (s : State) :
    (s.pinReset).istat = 0 := rfl
@[simp] theorem State.pinReset_resp (s : State) :
    (s.pinReset).resp = none := rfl
@[simp] theorem State.pinReset_turns (s : State) :
    (s.pinReset).turns = s.turns := rfl

end Sys2Proof.Machine
end

