-- ==== Sys2Proof/Laws/Ops.lean ====
section
/-! SUPPORT. Reading a register after each update, and what a completion leaves behind. -/

namespace Sys2Proof.Machine

theorem State.reg_congr {s t : State} (h : t.x = s.x) (r : Reg) : t.reg r = s.reg r := by
  simp [State.reg, h]

@[simp] theorem State.reg_setReg_self (s : State) (r : Reg) (v : Nat) :
    (s.setReg r v).reg r = v := by
  simp [State.reg]

theorem State.reg_setReg_of_ne (s : State) {r q : Reg} (v : Nat) (h : q ≠ r) :
    (s.setReg r v).reg q = s.reg q := by
  have : r.val ≠ q.val := fun e => h (Fin.ext e.symm)
  simp [State.reg, this]

theorem State.reg_setReg (s : State) (r q : Reg) (v : Nat) :
    (s.setReg r v).reg q = if q = r then v else s.reg q := by
  split
  next h => rw [h, State.reg_setReg_self]
  next h => exact State.reg_setReg_of_ne s v h

@[simp] theorem State.reg_setFlags (s : State) (f : Flags) (r : Reg) :
    (s.setFlags f).reg r = s.reg r := rfl
@[simp] theorem State.reg_pend (s : State) (b : BitVec 3) (r : Reg) :
    (s.pend b).reg r = s.reg r := rfl
@[simp] theorem State.reg_hazard (s : State) (r : Reg) : s.hazard.reg r = s.reg r := rfl
@[simp] theorem State.reg_accept (s : State) (w : Word) (r : Reg) :
    (s.accept w).reg r = s.reg r := rfl
@[simp] theorem State.reg_succeed (s : State) (r : Reg) : s.succeed.reg r = s.reg r := rfl
@[simp] theorem State.reg_errorCompletion (s : State) (e : ErrCode) (r : Reg) :
    (s.errorCompletion e).reg r = s.reg r := rfl
@[simp] theorem State.reg_blockReset (s : State) (r : Reg) : s.blockReset.reg r = 0 := by
  simp [State.reg, State.blockReset]
@[simp] theorem State.reg_pinReset (s : State) (r : Reg) : s.pinReset.reg r = 0 := by
  simp [State.reg, State.pinReset, State.blockReset]

@[simp] theorem State.width_setReg (s : State) (r : Reg) (v : Nat) :
    (s.setReg r v).width = s.width := rfl
@[simp] theorem State.width_setFlags (s : State) (f : Flags) : (s.setFlags f).width = s.width := rfl
@[simp] theorem State.width_succeed (s : State) : s.succeed.width = s.width := rfl
@[simp] theorem State.width_errorCompletion (s : State) (e : ErrCode) :
    (s.errorCompletion e).width = s.width := rfl

/-- Completion with success after register and flag writes. -/
theorem endedWith_succeed {s u : State} (h : SameControl s u) (hi : u.istat = s.istat) :
    EndedWith .ok s u.succeed :=
  ⟨rfl, rfl, rfl, by rw [State.succeed_istat, hi]; rfl, ⟨h.cfg, h.cmdr, h.ien, h.resp, h.turns⟩⟩

theorem completionBits_of_ne {e : ErrCode} (h : e ≠ .ok) : completionBits e = 0b011#3 := by
  cases e <;> first | rfl | exact absurd rfl h

/-- The error completion. -/
theorem endedWith_errorCompletion (s : State) {e : ErrCode} (h : e ≠ .ok) :
    EndedWith e s (s.errorCompletion e) :=
  ⟨rfl, rfl, rfl, by
    rw [completionBits_of_ne h, State.errorCompletion_istat, BitVec.or_assoc]; rfl,
    ⟨rfl, rfl, rfl, rfl, rfl⟩⟩

/-- A meaning that is the error completion fails with its code. -/
theorem failsWith_of_exec {i : Instr} {s : State} {e : ErrCode} (he : e ≠ .ok)
    (h : exec i s = .next (s.errorCompletion e)) : FailsWith e i s :=
  ⟨_, h, endedWith_errorCompletion s he, fun _ => rfl, rfl⟩

end Sys2Proof.Machine
end

