-- ==== Sys2Proof/Laws/Exec.lean ====
section
/-! SUPPORT. Everything a command's completion can do, said once (10_state.md R44). -/

namespace Sys2Proof.Machine

/-- What a successful command i has done to the state before the completion's own writes. -/
structure Wrote (i : Instr) (s u : State) : Prop where
  control : SameControl s u
  istat : u.istat = s.istat
  regs : SameRegsBut (dests i) s u
  zc : writesZC i = false → u.flags.z = s.flags.z ∧ u.flags.c = s.flags.c
  signs : writesSigns i = false → u.flags.xneg = s.flags.xneg ∧ u.flags.yneg = s.flags.yneg
  p : writesP i = false → u.flags.p = s.flags.p

theorem sameControl_rfl (s : State) : SameControl s s := ⟨rfl, rfl, rfl, rfl, rfl⟩

theorem sameRegsBut_setReg (s : State) (r : Reg) (v : Nat) {l : List Reg} (h : r ∈ l) :
    SameRegsBut l s (s.setReg r v) := fun _ hq =>
  State.reg_setReg_of_ne s v fun e => hq (e ▸ h)

theorem SameRegsBut.trans {l : List Reg} {s t u : State} (h : SameRegsBut l s t)
    (h' : SameRegsBut l t u) : SameRegsBut l s u := fun q hq => (h' q hq).trans (h q hq)

/-- One register written, no flag. -/
theorem wrote_setReg (i : Instr) (s : State) (rd : Reg) (v : Nat) (h : rd ∈ dests i) :
    Wrote i s (s.setReg rd v) :=
  ⟨⟨rfl, rfl, rfl, rfl, rfl⟩, rfl, sameRegsBut_setReg s rd v h, fun _ => ⟨rfl, rfl⟩,
    fun _ => ⟨rfl, rfl⟩, fun _ => rfl⟩

/-- A completion is either the error completion or the command's writes followed by success. -/
theorem exec_cases (i : Instr) (s : State) :
    (∃ e, e ≠ .ok ∧ exec i s = .next (s.errorCompletion e)) ∨
    ∃ u, Wrote i s u ∧ exec i s = .next u.succeed := by
  have hc : ∀ u : State, u.cfg = s.cfg ∧ u.cmdr = s.cmdr ∧ u.ien = s.ien ∧ u.resp = s.resp ∧
      u.turns = s.turns → SameControl s u := fun u h => ⟨h.1, h.2.1, h.2.2.1, h.2.2.2.1, h.2.2.2.2⟩
  cases i with
  | nop =>
    exact .inr ⟨s, ⟨sameControl_rfl s, rfl, fun _ _ => rfl, fun _ => ⟨rfl, rfl⟩,
      fun _ => ⟨rfl, rfl⟩, fun _ => rfl⟩, rfl⟩
  | ldi rd imm =>
    refine .inr ⟨_, ?_, rfl⟩
    exact wrote_setReg _ s rd _ (by simp [dests])
  | mov rd ra =>
    refine .inr ⟨_, ?_, rfl⟩
    exact wrote_setReg _ s rd _ (by simp [dests])
  | add rd ra rb =>
    refine .inr ⟨_, ?_, rfl⟩
    exact ⟨hc _ ⟨rfl, rfl, rfl, rfl, rfl⟩, rfl, sameRegsBut_setReg s rd _ (by simp [dests]), nofun,
      fun _ => ⟨rfl, rfl⟩, fun _ => rfl⟩
  | sub rd ra rb =>
    refine .inr ⟨_, ?_, rfl⟩
    exact ⟨hc _ ⟨rfl, rfl, rfl, rfl, rfl⟩, rfl, sameRegsBut_setReg s rd _ (by simp [dests]), nofun,
      fun _ => ⟨rfl, rfl⟩, fun _ => rfl⟩
  | cmp ra rb =>
    refine .inr ⟨_, ?_, rfl⟩
    exact ⟨hc _ ⟨rfl, rfl, rfl, rfl, rfl⟩, rfl, fun _ _ => rfl, nofun, fun _ => ⟨rfl, rfl⟩,
      fun _ => rfl⟩
  | modmul rd ra rb rc =>
    by_cases h : s.reg rc = 0
    · exact .inl ⟨.invmod, nofun, if_pos h⟩
    · exact .inr ⟨_, wrote_setReg _ s rd _ (by simp [dests]), if_neg h⟩
  | modexp rd ra rb rc =>
    by_cases h : s.reg rc = 0
    · exact .inl ⟨.invmod, nofun, if_pos h⟩
    · exact .inr ⟨_, wrote_setReg _ s rd _ (by simp [dests]), if_neg h⟩
  | egcd rd ra rb rc re =>
    by_cases h : rd = rc ∨ rd = re ∨ rc = re
    · exact .inl ⟨.illegal, nofun, if_pos h⟩
    · refine .inr ⟨_, ?_, if_neg h⟩
      exact ⟨hc _ ⟨rfl, rfl, rfl, rfl, rfl⟩, rfl,
        ((sameRegsBut_setReg s rd _ (by simp [dests])).trans
          (sameRegsBut_setReg _ rc _ (by simp [dests]))).trans
          (sameRegsBut_setReg _ re _ (by simp [dests])), fun _ => ⟨rfl, rfl⟩, nofun, fun _ => rfl⟩
  | modinv rd ra rc =>
    by_cases h : s.reg rc = 0
    · exact .inl ⟨.invmod, nofun, if_pos h⟩
    · cases hv : modInverse (s.reg ra) (s.reg rc) with
      | none => exact .inl ⟨.noinv, nofun, by simp [exec, execModinv, h, hv]⟩
      | some v =>
        exact .inr ⟨s.setReg rd v, wrote_setReg _ s rd v (by simp [dests]),
          by simp [exec, execModinv, h, hv]⟩
  | prime ra =>
    refine .inr ⟨_, ?_, rfl⟩
    exact ⟨hc _ ⟨rfl, rfl, rfl, rfl, rfl⟩, rfl, fun _ _ => rfl, fun _ => ⟨rfl, rfl⟩,
      fun _ => ⟨rfl, rfl⟩, nofun⟩
  | mrround ra rb =>
    by_cases h : s.reg rb < 2
    · exact .inl ⟨.range, nofun, if_pos h⟩
    · refine .inr ⟨_, ?_, if_neg h⟩
      exact ⟨hc _ ⟨rfl, rfl, rfl, rfl, rfl⟩, rfl, fun _ _ => rfl, fun _ => ⟨rfl, rfl⟩,
        fun _ => ⟨rfl, rfl⟩, nofun⟩

/-- The completion of the word in flight, decoded or not, in the same two forms. -/
theorem complete_cases (s : State) :
    (∃ e, e ≠ .ok ∧ complete s = .next (s.errorCompletion e)) ∨
    ∃ i u, decode s.cmdr = .ok i ∧ Wrote i s u ∧ complete s = .next u.succeed := by
  unfold complete
  cases h : decode s.cmdr with
  | error e => exact .inl ⟨.illegal, nofun, rfl⟩
  | ok i =>
    obtain he | ⟨u, hw, hu⟩ := exec_cases i s
    · exact .inl he
    · exact .inr ⟨i, u, rfl, hw, hu⟩

/-- What a completion reads: instance, registers and flags; states that agree on them end alike. -/
theorem exec_congr (i : Instr) {s u : State} (hc : s.cfg = u.cfg) (hx : s.x = u.x)
    (hf : s.flags = u.flags) :
    ∃ t v, exec i s = .next t ∧ exec i u = .next v ∧ t.errc = v.errc ∧ t.x = v.x ∧
      t.flags = v.flags := by
  obtain ⟨cfg, x, fl, _⟩ := s
  obtain ⟨cfg', x', fl', _⟩ := u
  simp only at hc hx hf
  subst hc hx hf
  have hr : ∀ b d e w n a p l r, (State.mk cfg x fl b d e w n a p l).reg r = x[r] :=
    fun _ _ _ _ _ _ _ _ _ => rfl
  cases i <;> simp only [exec, execModmul, execModexp, execMrround, execEgcd, execModinv, hr] <;>
    (try split) <;> (try split) <;> exact ⟨_, _, rfl, rfl, rfl, rfl, rfl⟩

/-- The same of the completion of the word in flight. -/
theorem complete_congr {s u : State} (hc : s.cfg = u.cfg) (hx : s.x = u.x) (hf : s.flags = u.flags)
    (hw : s.cmdr = u.cmdr) :
    ∃ t v, complete s = .next t ∧ complete u = .next v ∧ t.errc = v.errc ∧ t.x = v.x ∧
      t.flags = v.flags := by
  unfold complete
  rw [hw]
  split
  · exact exec_congr _ hc hx hf
  · exact ⟨_, _, rfl, rfl, rfl, hx, hf⟩

/-- The completion always answers a next state, and how it ends. -/
theorem complete_next (s : State) :
    ∃ t, complete s = .next t ∧ EndedWith t.errc s t ∧
      (t.errc ≠ .ok → t = s.errorCompletion t.errc) := by
  obtain ⟨e, he, h⟩ | ⟨i, u, -, hw, h⟩ := complete_cases s
  · exact ⟨_, h, endedWith_errorCompletion s he, fun _ => rfl⟩
  · exact ⟨_, h, endedWith_succeed hw.control hw.istat, fun h => absurd rfl h⟩

/-- The engine's turn always answers a next state and leaves the block idle. -/
theorem engineTurn_next (s : State) :
    ∃ t, engineTurn s = .next t ∧ t.busy = false ∧ t.turns = s.turns ∧ t.cfg = s.cfg ∧
      (s.busy = true ∧ complete s = .next t ∨ s.busy = false ∧ t = s) := by
  unfold engineTurn
  cases hb : s.busy with
  | true =>
    obtain ⟨t, h, he, -⟩ := complete_next s
    exact ⟨t, by simpa using h, he.busy, he.control.turns, he.control.cfg, .inl ⟨rfl, h⟩⟩
  | false => exact ⟨s, by simp, hb, rfl, rfl, .inr ⟨rfl, rfl⟩⟩

end Sys2Proof.Machine
end

