-- ==== Sys2Proof/Laws/Bus.lean ====
section
/-! SUPPORT. The address map, limbs, and everything a transaction can do, said once (20_memory.md). -/

namespace Sys2Proof.Machine

/-- The state after a read is the state before it, or the hazard on the window while BUSY. -/
theorem memRead_state (a : Addr) (n : Size) (s : State) :
    (memRead a n s).2 = s ∨
    (s.busy = true ∧ n = .word ∧ a.toNat % 4 = 0 ∧ 0x2000 ≤ a.toNat ∧
      (memRead a n s).2 = s.hazard) := by
  unfold memRead
  split
  · exact .inl rfl
  next hw =>
    have hw' : n = .word ∧ a.toNat % 4 = 0 := by simpa [wellFormedAccess] using hw
    split <;> try exact .inl rfl
    next r i ht =>
      have : 0x2000 ≤ a.toNat := by
        unfold target at ht
        split at ht
        · split at ht <;> cases ht
        · split at ht
          · cases ht
          · omega
      cases hb : s.busy
      · exact .inl (by simp)
      · exact .inr ⟨rfl, hw'.1, hw'.2, this, by simp⟩

/-- The aligned addresses of the control registers (10_state.md R28). -/
theorem controlAddr_cases {a : Addr} (h : a.toNat < 0x20) (h4 : a.toNat % 4 = 0) :
    a = 0x000 ∨ a = 0x004 ∨ a = 0x008 ∨ a = 0x00C ∨ a = 0x010 ∨ a = 0x014 ∨ a = 0x018 ∨
      a = 0x01C := by
  have key (k : Nat) (hk : k < 2 ^ 14) (e : a.toNat = k) : a = BitVec.ofNat 14 k :=
    BitVec.eq_of_toNat_eq (by rw [BitVec.toNat_ofNat, Nat.mod_eq_of_lt hk, e])
  obtain e | e | e | e | e | e | e | e : a.toNat = 0 ∨ a.toNat = 4 ∨ a.toNat = 8 ∨ a.toNat = 12 ∨
      a.toNat = 16 ∨ a.toNat = 20 ∨ a.toNat = 24 ∨ a.toNat = 28 := by omega
  all_goals simp [key _ (by decide) e]

/-- What a write can do to the state. -/
inductive WriteEffect (a : Addr) (n : Size) (v : Word) (s : State) : State → Prop
  | ignored : WriteEffect a n v s s
  | softReset (h : (Transaction.write a n v).isSoftReset = true) : WriteEffect a n v s s.blockReset
  | accepted (ha : a = 0x010) (hb : s.busy = false) : WriteEffect a n v s (s.accept v)
  | hazard (hb : s.busy = true) (hn : n = .word) (ha : a.toNat % 4 = 0)
      (hw : 0x2000 ≤ a.toNat ∨ a = 0x010) : WriteEffect a n v s s.hazard
  | enables (ha : a = 0x018) : WriteEffect a n v s { s with ien := v.extractLsb' 0 3 }
  | acknowledge (hn : n = .word) (ha : a = 0x01C) :
      WriteEffect a n v s { s with istat := s.istat &&& ~~~(v.extractLsb' 0 3) }
  | limb (hn : n = .word) (hw : 0x2000 ≤ a.toNat) (hb : s.busy = false)
      (hi : windowLimb a < s.cfg.limbs) :
      WriteEffect a n v s
        (s.setReg (windowReg a) (setLimb (s.reg (windowReg a)) (windowLimb a) v))

theorem memWrite_state (a : Addr) (n : Size) (v : Word) (s : State) :
    WriteEffect a n v s (memWrite a n v s).2 := by
  unfold memWrite
  split
  · exact .ignored
  next hw =>
    have hw' : n = .word ∧ a.toNat % 4 = 0 := by simpa [wellFormedAccess] using hw
    by_cases h1 : a.toNat < 0x20
    · obtain rfl | rfl | rfl | rfl | rfl | rfl | rfl | rfl := controlAddr_cases h1 hw'.2
      · exact .ignored
      · exact .ignored
      · by_cases hv : v.getLsbD 0 = true
        · simp only [show target 0x008 = .ctrlReg from rfl, hv, if_true]
          refine .softReset ?_
          simp only [Transaction.isSoftReset, show target 0x008 = .ctrlReg from rfl, hv]
          simpa using hw
        · simp only [show target 0x008 = .ctrlReg from rfl, hv]; exact .ignored
      · exact .ignored
      · cases hb : s.busy
        · simpa only [show target 0x010 = .cmdReg from rfl, hb, if_true, Bool.false_eq_true, if_false] using
            WriteEffect.accepted (n := n) rfl hb
        · simpa only [show target 0x010 = .cmdReg from rfl, hb, if_true, Bool.false_eq_true, if_false] using
            WriteEffect.hazard hb hw'.1 hw'.2 (.inr rfl)
      · exact .ignored
      · exact .enables rfl
      · exact .acknowledge hw'.1 rfl
    · by_cases h2 : a.toNat < 0x2000
      · simp only [target, h1, h2, if_true, if_false]; exact .ignored
      · have h3 : 0x2000 ≤ a.toNat := by omega
        simp only [target, h1, h2, if_false]
        cases hb : s.busy
        · by_cases hi : windowLimb a < s.cfg.limbs
          · simpa [State.writeLimb, hi] using WriteEffect.limb hw'.1 h3 hb hi
          · simpa [State.writeLimb, hi] using WriteEffect.ignored
        · simpa using WriteEffect.hazard hb hw'.1 hw'.2 (.inl h3)

/-- An ERROR response carries no data (20_memory.md R70). -/
theorem memRead_error (a : Addr) (n : Size) (s : State) (h : (memRead a n s).1.resp = .error) :
    (memRead a n s).1.data = 0 := by
  unfold memRead at h ⊢
  split at h
  · next hw => simp [hw, busError]
  · next hw =>
    simp only [hw] at h ⊢
    split at h <;> simp_all [busError]
    split at h <;> cases h

theorem memWrite_data (a : Addr) (n : Size) (v : Word) (s : State) :
    (memWrite a n v s).1.data = 0 := by
  unfold memWrite
  split
  · rfl
  · split <;> rfl

/-! The control addresses, in the spelling `simp` gives a literal (10_state.md R28). -/

@[simp] theorem target_id : target 0#14 = .idReg := rfl
@[simp] theorem target_cfg : target 4#14 = .cfgReg := rfl
@[simp] theorem target_ctrl : target 8#14 = .ctrlReg := rfl
@[simp] theorem target_status : target 12#14 = .statusReg := rfl
@[simp] theorem target_cmd : target 16#14 = .cmdReg := rfl
@[simp] theorem target_flags : target 20#14 = .flagsReg := rfl
@[simp] theorem target_ien : target 24#14 = .ienReg := rfl
@[simp] theorem target_istat : target 28#14 = .istatReg := rfl

/-- The reset leaves the stated values (10_state.md R48). -/
theorem atReset_blockReset (s : State) : AtReset s.blockReset :=
  ⟨by simp, rfl, rfl, rfl, rfl, by simp [State.statusWord, State.blockReset, ErrCode.bits], rfl, rfl,
    rfl, by simp [State.irq, State.blockReset], rfl, rfl⟩

/-- `AtReset` does not look at the port's response or at what is planned. -/
theorem AtReset.withResp {s : State} (h : AtReset s) (r : Option Response) :
    AtReset { s with resp := r } :=
  ⟨h.x, h.flags, h.busy, h.done, h.errc, h.status, h.cmdr, h.ien, h.istat, h.irq, rfl, rfl⟩

theorem atReset_pinReset (s : State) : AtReset s.pinReset := (atReset_blockReset s).withResp none

/-- The window address of a limb position names that position (20_memory.md R68). -/
theorem target_window (r : Reg) {i : Nat} (hi : i < 128) :
    target (BitVec.ofNat 14 (0x2000 + 0x200 * r.val + 4 * i)) = .window r i ∧
    (BitVec.ofNat 14 (0x2000 + 0x200 * r.val + 4 * i)).toNat = 0x2000 + 0x200 * r.val + 4 * i := by
  have hr := r.isLt
  have hn : (BitVec.ofNat 14 (0x2000 + 0x200 * r.val + 4 * i)).toNat =
      0x2000 + 0x200 * r.val + 4 * i := by
    rw [BitVec.toNat_ofNat]; omega
  refine ⟨?_, hn⟩
  have h1 : ¬(0x2000 + 0x200 * r.val + 4 * i < 0x20) := by omega
  have h2 : ¬(0x2000 + 0x200 * r.val + 4 * i < 0x2000) := by omega
  simp only [target, hn, h1, h2, if_false, windowReg, windowLimb, Target.window.injEq]
  exact ⟨Fin.ext (by show (_ - _) / _ = _; omega), by omega⟩

/-- Reading limb j after replacing limb i. -/
theorem limb_setLimb (v i j : Nat) (l : Word) :
    limb (setLimb v i l) j = if j = i then l else limb v j := by
  have hl := l.isLt
  have hP (k : Nat) : 0 < 2 ^ (32 * k) := Nat.two_pow_pos _
  apply BitVec.eq_of_toNat_eq
  have key : (setLimb v i l / 2 ^ (32 * j)) % 2 ^ 32 =
      if j = i then l.toNat else (v / 2 ^ (32 * j)) % 2 ^ 32 := by
    unfold setLimb
    have e1 : 2 ^ (32 * (i + 1)) = 2 ^ (32 * i) * 2 ^ 32 := by rw [← pow_add]; ring_nf
    have hlow := Nat.mod_lt v (hP i)
    by_cases hji : j = i
    · subst hji
      rw [if_pos rfl, e1]
      have : v / (2 ^ (32 * j) * 2 ^ 32) * (2 ^ (32 * j) * 2 ^ 32) + l.toNat * 2 ^ (32 * j) +
          v % 2 ^ (32 * j) =
          v % 2 ^ (32 * j) + 2 ^ (32 * j) *
            (l.toNat + 2 ^ 32 * (v / (2 ^ (32 * j) * 2 ^ 32))) := by ring
      rw [this, Nat.add_mul_div_left _ _ (hP j), Nat.div_eq_of_lt hlow, Nat.zero_add,
        Nat.add_mul_mod_self_left, Nat.mod_eq_of_lt hl]
    · rw [if_neg hji]
      rcases Nat.lt_or_gt_of_ne hji with hlt | hgt
      · -- j < i: the bits below limb i are those of v
        obtain ⟨d, rfl⟩ : ∃ d, i = j + 1 + d := ⟨i - j - 1, by omega⟩
        have e2 : 2 ^ (32 * (j + 1 + d)) = 2 ^ (32 * j) * (2 ^ 32 * 2 ^ (32 * d)) := by
          rw [← pow_add, ← pow_add]; ring_nf
        have hv : v / (2 ^ (32 * (j + 1 + d)) * 2 ^ 32) * (2 ^ (32 * (j + 1 + d)) * 2 ^ 32) +
            l.toNat * 2 ^ (32 * (j + 1 + d)) + v % 2 ^ (32 * (j + 1 + d)) =
            v % 2 ^ (32 * (j + 1 + d)) + 2 ^ (32 * j) * (2 ^ 32 * (2 ^ (32 * d) *
              (l.toNat + 2 ^ 32 * (v / (2 ^ (32 * (j + 1 + d)) * 2 ^ 32))))) := by
          rw [e2]; ring
        rw [e1, hv, Nat.add_mul_div_left _ _ (hP j), Nat.add_mul_mod_self_left]
        have h2 : v = v % 2 ^ (32 * (j + 1 + d)) +
            2 ^ (32 * j) * (2 ^ 32 * (2 ^ (32 * d) * (v / 2 ^ (32 * (j + 1 + d))))) := by
          have h := Nat.mod_add_div v (2 ^ (32 * (j + 1 + d)))
          have h' : 2 ^ (32 * j) * (2 ^ 32 * (2 ^ (32 * d) * (v / 2 ^ (32 * (j + 1 + d))))) =
              2 ^ (32 * (j + 1 + d)) * (v / 2 ^ (32 * (j + 1 + d))) := by rw [e2]; ring
          rw [h', h]
        conv_rhs => rw [h2]
        rw [Nat.add_mul_div_left _ _ (hP j), Nat.add_mul_mod_self_left]
      · -- j > i: the limbs above are those of v
        obtain ⟨d, rfl⟩ : ∃ d, j = i + 1 + d := ⟨j - i - 1, by omega⟩
        have e2 : 2 ^ (32 * (i + 1 + d)) = 2 ^ (32 * (i + 1)) * 2 ^ (32 * d) := by
          rw [← pow_add]; ring_nf
        have hsmall : l.toNat * 2 ^ (32 * i) + v % 2 ^ (32 * i) < 2 ^ (32 * (i + 1)) := by
          rw [e1]
          have : l.toNat * 2 ^ (32 * i) + 2 ^ (32 * i) ≤ 2 ^ 32 * 2 ^ (32 * i) := by
            rw [← Nat.succ_mul]; exact Nat.mul_le_mul_right _ hl
          calc l.toNat * 2 ^ (32 * i) + v % 2 ^ (32 * i)
              < l.toNat * 2 ^ (32 * i) + 2 ^ (32 * i) := by omega
            _ ≤ _ := this
            _ = _ := by ring
        rw [e2, ← Nat.div_div_eq_div_mul, ← Nat.div_div_eq_div_mul, Nat.add_assoc,
          Nat.add_comm, Nat.add_mul_div_right _ _ (hP (i + 1)), Nat.div_eq_of_lt hsmall,
          Nat.zero_add]
  simp only [limb, BitVec.toNat_ofNat]
  split
  next h => rw [if_pos h] at key; exact key
  next h => rw [if_neg h] at key; simpa using key

/-- A limb write keeps a register in range (10_state.md R21). -/
theorem setLimb_lt {v i n : Nat} (l : Word) (hv : v < 2 ^ (32 * n)) (hi : i < n) :
    setLimb v i l < 2 ^ (32 * n) := by
  unfold setLimb
  have hl := l.isLt
  obtain ⟨d, rfl⟩ : ∃ d, n = i + 1 + d := ⟨n - i - 1, by omega⟩
  have e1 : 2 ^ (32 * (i + 1)) = 2 ^ (32 * i) * 2 ^ 32 := by rw [← pow_add]; ring_nf
  have e2 : 2 ^ (32 * (i + 1 + d)) = 2 ^ (32 * (i + 1)) * 2 ^ (32 * d) := by
    rw [← pow_add]; ring_nf
  have hlow := Nat.mod_lt v (Nat.two_pow_pos (32 * i))
  have hq : v / 2 ^ (32 * (i + 1)) < 2 ^ (32 * d) :=
    Nat.div_lt_of_lt_mul (by rw [← e2]; exact hv)
  have hsmall : l.toNat * 2 ^ (32 * i) + v % 2 ^ (32 * i) < 2 ^ (32 * (i + 1)) := by
    have : l.toNat * 2 ^ (32 * i) + 2 ^ (32 * i) ≤ 2 ^ 32 * 2 ^ (32 * i) := by
      rw [← Nat.succ_mul]; exact Nat.mul_le_mul_right _ hl
    rw [e1, mul_comm (2 ^ (32 * i))]; omega
  calc v / 2 ^ (32 * (i + 1)) * 2 ^ (32 * (i + 1)) + l.toNat * 2 ^ (32 * i) + v % 2 ^ (32 * i)
      < v / 2 ^ (32 * (i + 1)) * 2 ^ (32 * (i + 1)) + 2 ^ (32 * (i + 1)) := by omega
    _ = (v / 2 ^ (32 * (i + 1)) + 1) * 2 ^ (32 * (i + 1)) := by ring
    _ ≤ 2 ^ (32 * d) * 2 ^ (32 * (i + 1)) := Nat.mul_le_mul_right _ hq
    _ = 2 ^ (32 * (i + 1 + d)) := by rw [e2]; ring

end Sys2Proof.Machine
end

