-- ==== Sys2Proof/Laws/Decode.lean ====
section
/-! SUPPORT. The decoder on a word given as a number, and what a decoded word looks like. -/

namespace Sys2Proof

/-- A register field of a word given as a number. -/
theorem regAt_ofNat {n lo : Nat} {r : Reg} (hn : n < 2 ^ 32) (h : n / 2 ^ lo % 16 = r.val) :
    regAt (BitVec.ofNat 32 n) lo = r := by
  apply Fin.ext
  show (BitVec.ofNat 32 n).toNat / 2 ^ lo % 16 = r.val
  rw [BitVec.toNat_ofNat, Nat.mod_eq_of_lt hn, h]

/-- Any field of a word given as a number. -/
theorem slice_ofNat {n : Nat} (hn : n < 2 ^ 32) (hi lo : Nat) :
    slice (BitVec.ofNat 32 n) hi lo = n / 2 ^ lo % 2 ^ (hi + 1 - lo) := by
  rw [slice, BitVec.toNat_ofNat, Nat.mod_eq_of_lt hn]

/-- The register number that a field holds. -/
theorem regAt_val (w : Word) (lo : Nat) : (regAt w lo).val = w.toNat / 2 ^ lo % 16 := rfl

theorem ifZero_ok {z : Nat} {i j : Instr} (h : ifZero z i = .ok j) : z = 0 ∧ i = j := by
  unfold ifZero at h
  split at h
  next hz => exact ⟨hz, by injection h⟩
  next => cases h

theorem ifZero_zero {z : Nat} (h : z = 0) (i : Instr) : ifZero z i = .ok i := if_pos h

theorem ofOpcode_opcode (c : Command) : Command.ofOpcode c.opcode = some c := by
  cases c <;> rfl

theorem opcode_of_ofOpcode {op : Nat} {c : Command} (h : Command.ofOpcode op = some c) :
    c.opcode = op := by
  simpa using List.find?_some h

/-- A word with a row's opcode is read by that row. -/
theorem decode_of_opcode {w : Word} (c : Command) (h : slice w 31 24 = c.opcode) :
    decode w = c.read w := by
  rw [decode, h, ofOpcode_opcode]

/-- A word that decodes has the opcode of some row, and that row reads it. -/
theorem decode_ok {w : Word} {i : Instr} (h : decode w = .ok i) :
    ∃ c : Command, slice w 31 24 = c.opcode ∧ c.read w = .ok i := by
  unfold decode at h
  split at h
  next c hc => exact ⟨c, (opcode_of_ofOpcode hc).symm, h⟩
  next => cases h

end Sys2Proof
end

