-- ==== Sys2Proof/Laws/HostSoftware.lean ====
section
/-! SUPPORT. What each search of the surrounding software can answer (50_host_software.md R213 to
R220). -/

namespace Sys2Proof.Machine

/-- The bytes of k draws extend a value of j bytes to one of j + k bytes. -/
theorem drawBytes_lt (k : Nat) (s : BitVec 64) {v j : Nat} (h : v < 256 ^ j) :
    (drawBytes k s v).2 < 256 ^ (j + k) := by
  induction k generalizing s v j with
  | zero => exact h
  | succ k ih =>
    have hb : lowByte (prngState s) < 256 := Nat.mod_lt _ (by decide)
    rw [drawBytes, show j + (k + 1) = (j + 1) + k by omega]
    exact ih _ (by rw [pow_succ]; omega)

/-- A drawn candidate, made odd, has exactly the requested bit length (R213, R215). -/
theorem drawBits_some {s s' : BitVec 64} {n c : Nat} (h : drawBits s n = some (s', c)) :
    8 ≤ n ∧ 2 ^ (n - 1) ≤ c ||| 1 ∧ c ||| 1 < 2 ^ n := by
  unfold drawBits at h
  split at h
  next hn =>
    simp only [Option.some.injEq, Prod.mk.injEq] at h
    obtain ⟨-, rfl⟩ := h
    have hb : (drawBytes (n / 8) s 0).2 < 2 ^ n := by
      have := drawBytes_lt (n / 8) s (v := 0) (j := 0) (by decide)
      rw [show 256 = 2 ^ 8 from rfl, ← pow_mul] at this
      rwa [show 8 * (0 + n / 8) = n by omega] at this
    refine ⟨by omega, Nat.right_le_or.trans Nat.left_le_or, ?_⟩
    exact Nat.or_lt_two_pow (Nat.or_lt_two_pow hb (Nat.pow_lt_pow_right (by decide) (by omega)))
      (Nat.one_lt_two_pow (by omega))
  next => cases h

/-- What a prime search answers: reported as probably prime and of the requested length. -/
structure FoundPrime (bits q : Nat) : Prop where
  probable : isProbablePrime q = true
  size : 8 ≤ bits
  low : 2 ^ (bits - 1) ≤ q
  high : q < 2 ^ bits

/-- A hit of the search at its first candidate. -/
theorem foundPrime_of_draw {bits c : Nat} {s s' : BitVec 64} (h : drawBits s bits = some (s', c))
    (hp : isProbablePrime (c ||| 1) = true) : FoundPrime bits (c ||| 1) :=
  have ⟨h8, hl, hh⟩ := drawBits_some h
  ⟨hp, h8, hl, hh⟩

theorem primeLoop_ok (bits retries : Nat) (s : BitVec 64) (n : Attempts) {q : Nat}
    (h : (primeLoop bits retries s n).result = .ok q) : FoundPrime bits q := by
  induction retries generalizing s n with
  | zero =>
    unfold primeLoop at h
    split at h
    · cases h
    next s' c hd =>
      simp only at h
      split at h
      next hp => cases h; exact foundPrime_of_draw hd hp
      next => cases h
  | succ k ih =>
    unfold primeLoop at h
    split at h
    · cases h
    next s' c hd =>
      simp only at h
      split at h
      next hp => cases h; exact foundPrime_of_draw hd hp
      next => exact ih _ _ h

theorem generatePrime_ok {c : Config} {bits retries : Nat} {s : BitVec 64} {n : Attempts} {q : Nat}
    (h : (generatePrime c bits retries s n).result = .ok q) :
    bits ≤ c.width ∧ FoundPrime bits q := by
  unfold generatePrime at h
  split at h
  next hw => exact ⟨hw, primeLoop_ok _ _ _ _ h⟩
  next => cases h

theorem otherPrime_ok (c : Config) (bits draws p redraws : Nat) (s : BitVec 64) (n : Attempts)
    {q : Nat} (h : (otherPrime c bits draws p redraws s n).result = .ok q) :
    FoundPrime bits q ∧ q ≠ p := by
  induction redraws generalizing s n with
  | zero =>
    unfold otherPrime at h
    split at h
    · cases h
    next q' s' n' hg =>
      split at h
      · cases h
      next hne => cases h; exact ⟨(generatePrime_ok (by rw [hg])).2, hne⟩
  | succ k ih =>
    unfold otherPrime at h
    split at h
    · cases h
    next q' s' n' hg =>
      split at h
      · exact ih _ _ h
      next hne => cases h; exact ⟨(generatePrime_ok (by rw [hg])).2, hne⟩

/-- A keypair that the loop answers is that of two distinct primes it found. -/
theorem keyLoop_ok (c : Config) (bits : Nat) (b : RetryBounds) (resamples : Nat) (s : BitVec 64)
    (n : Attempts) {kp : Keypair} (h : (keyLoop c bits b resamples s n).result = .ok kp) :
    ∃ p q, FoundPrime bits p ∧ FoundPrime bits q ∧ q ≠ p ∧ keypairOf c p q = .ok kp := by
  induction resamples generalizing s n with
  | zero =>
    unfold keyLoop at h
    split at h
    · cases h
    next p s1 n1 hp =>
      split at h
      · cases h
      next q s2 n2 hq =>
        split at h
        next kp' hk =>
          cases h
          obtain ⟨hq', hne⟩ := otherPrime_ok c bits b.draws p b.redraws s1 n1 (by rw [hq])
          exact ⟨p, q, (generatePrime_ok (by rw [hp])).2, hq', hne, hk⟩
        · cases h
        · cases h
  | succ k ih =>
    unfold keyLoop at h
    split at h
    · cases h
    next p s1 n1 hp =>
      split at h
      · cases h
      next q s2 n2 hq =>
        split at h
        next kp' hk =>
          cases h
          obtain ⟨hq', hne⟩ := otherPrime_ok c bits b.draws p b.redraws s1 n1 (by rw [hq])
          exact ⟨p, q, (generatePrime_ok (by rw [hp])).2, hq', hne, hk⟩
        · exact ih _ _ h
        · cases h

end Sys2Proof.Machine
end

