-- ==== Sys2Proof/Laws/PerInstr.lean ====
section
/-! SUPPORT. Facts about every command as syntax, one lemma for each constructor. -/

/-- The opcode byte of a command's word is the opcode of its row, whatever the operands are
(30_encoding.md R92, R101). -/
def Sys2Proof.Laws.OpcodeField.Statement (i : Sys2Proof.Instr) : Prop :=
  Sys2Proof.slice (Sys2Proof.encode i) 31 24 = i.command.opcode

namespace Sys2Proof.Laws.OpcodeField

/-- The opcode byte of a word given as opcode and operand part. -/
theorem of_sum {op n : Nat} (h : op < 256) (hn : n < 2 ^ 24) :
    slice (BitVec.ofNat 32 (op * 2 ^ 24 + n)) 31 24 = op := by
  rw [slice_ofNat (by omega)]
  omega

theorem nop : Statement .nop := rfl

theorem ldi (rd : Reg) (imm : BitVec 20) : Statement (.ldi rd imm) := by
  have := imm.isLt
  have e : 0x01000000 + rd.val * 2 ^ 20 + imm.toNat =
    0x01 * 2 ^ 24 + (rd.val * 2 ^ 20 + imm.toNat) := by omega
  rw [Statement, encode, e]
  exact of_sum (by decide) (by omega)

theorem mov (rd ra : Reg) : Statement (.mov rd ra) := by
  have e : 0x02000000 + rd.val * 2 ^ 20 + ra.val * 2 ^ 16 =
    0x02 * 2 ^ 24 + (rd.val * 2 ^ 20 + ra.val * 2 ^ 16) := by omega
  rw [Statement, encode, e]
  exact of_sum (by decide) (by omega)

theorem add (rd ra rb : Reg) : Statement (.add rd ra rb) := by
  have e : 0x10000000 + rd.val * 2 ^ 20 + ra.val * 2 ^ 16 + rb.val * 2 ^ 12 =
    0x10 * 2 ^ 24 + (rd.val * 2 ^ 20 + ra.val * 2 ^ 16 + rb.val * 2 ^ 12) := by omega
  rw [Statement, encode, e]
  exact of_sum (by decide) (by omega)

theorem sub (rd ra rb : Reg) : Statement (.sub rd ra rb) := by
  have e : 0x11000000 + rd.val * 2 ^ 20 + ra.val * 2 ^ 16 + rb.val * 2 ^ 12 =
    0x11 * 2 ^ 24 + (rd.val * 2 ^ 20 + ra.val * 2 ^ 16 + rb.val * 2 ^ 12) := by omega
  rw [Statement, encode, e]
  exact of_sum (by decide) (by omega)

theorem cmp (ra rb : Reg) : Statement (.cmp ra rb) := by
  have e : 0x12000000 + ra.val * 2 ^ 16 + rb.val * 2 ^ 12 =
    0x12 * 2 ^ 24 + (ra.val * 2 ^ 16 + rb.val * 2 ^ 12) := by omega
  rw [Statement, encode, e]
  exact of_sum (by decide) (by omega)

theorem modmul (rd ra rb rc : Reg) : Statement (.modmul rd ra rb rc) := by
  have e : 0x20000000 + rd.val * 2 ^ 20 + ra.val * 2 ^ 16 + rb.val * 2 ^ 12 + rc.val * 2 ^ 8 =
    0x20 * 2 ^ 24 +
      (rd.val * 2 ^ 20 + ra.val * 2 ^ 16 + rb.val * 2 ^ 12 + rc.val * 2 ^ 8) := by omega
  rw [Statement, encode, e]
  exact of_sum (by decide) (by omega)

theorem modexp (rd ra rb rc : Reg) : Statement (.modexp rd ra rb rc) := by
  have e : 0x30000000 + rd.val * 2 ^ 20 + ra.val * 2 ^ 16 + rb.val * 2 ^ 12 + rc.val * 2 ^ 8 =
    0x30 * 2 ^ 24 +
      (rd.val * 2 ^ 20 + ra.val * 2 ^ 16 + rb.val * 2 ^ 12 + rc.val * 2 ^ 8) := by omega
  rw [Statement, encode, e]
  exact of_sum (by decide) (by omega)

theorem egcd (rd ra rb rc re : Reg) : Statement (.egcd rd ra rb rc re) := by
  have e : 0x40000000 + rd.val * 2 ^ 20 + ra.val * 2 ^ 16 + rb.val * 2 ^ 12 + rc.val * 2 ^ 8
      + re.val * 2 ^ 4 =
    0x40 * 2 ^ 24 +
      (rd.val * 2 ^ 20 + ra.val * 2 ^ 16 + rb.val * 2 ^ 12 + rc.val * 2 ^ 8
        + re.val * 2 ^ 4) := by omega
  rw [Statement, encode, e]
  exact of_sum (by decide) (by omega)

theorem modinv (rd ra rc : Reg) : Statement (.modinv rd ra rc) := by
  have e : 0x41000000 + rd.val * 2 ^ 20 + ra.val * 2 ^ 16 + rc.val * 2 ^ 8 =
    0x41 * 2 ^ 24 + (rd.val * 2 ^ 20 + ra.val * 2 ^ 16 + rc.val * 2 ^ 8) := by omega
  rw [Statement, encode, e]
  exact of_sum (by decide) (by omega)

theorem prime (ra : Reg) : Statement (.prime ra) := by
  have e : 0x50000000 + ra.val * 2 ^ 16 = 0x50 * 2 ^ 24 + ra.val * 2 ^ 16 := by omega
  rw [Statement, encode, e]
  exact of_sum (by decide) (by omega)

theorem mrround (ra rb : Reg) : Statement (.mrround ra rb) := by
  have e : 0x51000000 + ra.val * 2 ^ 16 + rb.val * 2 ^ 12 =
    0x51 * 2 ^ 24 + (ra.val * 2 ^ 16 + rb.val * 2 ^ 12) := by omega
  rw [Statement, encode, e]
  exact of_sum (by decide) (by omega)

end Sys2Proof.Laws.OpcodeField
end

