-- ==== Sys2Proof/Laws/Step.lean ====
section
/-! SUPPORT. Everything one step can do, said once (10_state.md R49). -/

namespace Sys2Proof.Machine

/-- A transaction is the state change of its read or write with the answer at the port. -/
theorem transact_eq (t : Transaction) (s : State) :
    ∃ s' a, transact t s = { s' with resp := some a } ∧
      (a.resp = .error → a.data = 0) ∧
      ((s' = s ∨ (s.busy = true ∧ s' = s.hazard ∧ ∃ b, t = .read b .word ∧ b.toNat % 4 = 0 ∧
        0x2000 ≤ b.toNat)) ∨ ∃ b n v, t = .write b n v ∧ WriteEffect b n v s s') := by
  cases t with
  | read b n =>
    refine ⟨_, _, rfl, memRead_error b n s, .inl ?_⟩
    obtain h | ⟨hb, hn, h4, hw, h⟩ := memRead_state b n s
    · exact .inl h
    · exact .inr ⟨hb, h, b, by rw [hn], h4, hw⟩
  | write b n v =>
    exact ⟨_, _, rfl, fun _ => memWrite_data b n v s, .inr ⟨b, n, v, rfl, memWrite_state b n v s⟩⟩

/-- The three kinds of step, by what is planned. -/
theorem step_cases (s : State) :
    (s.completesNext ∧ step s = complete { s with turns := s.turns.tail }) ∨
    (s.busy = false ∧ (s.turns = [] ∨ ∃ rest, s.turns = .completion :: rest) ∧
      step s = .next { s with turns := s.turns.tail }) ∨
    (∃ rest, s.turns = .pinReset :: rest ∧ step s = .next { s with turns := rest }.pinReset) ∨
    ∃ tr rest, s.turns = .transaction tr :: rest ∧
      step s = .next (transact tr { s with turns := rest }) := by
  obtain ⟨cfg, x, flags, busy, done, errc, cmdr, ien, istat, resp, turns⟩ := s
  cases turns with
  | nil =>
    cases busy
    · exact .inr (.inl ⟨rfl, .inl rfl, rfl⟩)
    · exact .inl ⟨⟨rfl, .inl rfl⟩, rfl⟩
  | cons t rest =>
    cases t with
    | transaction tr => exact .inr (.inr (.inr ⟨tr, rest, rfl, rfl⟩))
    | pinReset => exact .inr (.inr (.inl ⟨rest, rfl, rfl⟩))
    | completion =>
      cases busy
      · exact .inr (.inl ⟨rfl, .inr ⟨rest, rfl⟩, rfl⟩)
      · exact .inl ⟨⟨rfl, .inr ⟨rest, rfl⟩⟩, rfl⟩

/-- A step always answers a next state, with one move fewer planned. -/
theorem step_next (s : State) : ∃ t, step s = .next t ∧ t.turns = s.turns.tail := by
  obtain ⟨-, h⟩ | ⟨-, -, h⟩ | ⟨rest, hr, h⟩ | ⟨tr, rest, hr, h⟩ := step_cases s
  · obtain ⟨t, ht, he, -⟩ := complete_next { s with turns := s.turns.tail }
    exact ⟨t, h.trans ht, he.control.turns⟩
  · exact ⟨_, h, rfl⟩
  · exact ⟨_, h, by rw [hr]; rfl⟩
  · obtain ⟨s', a, e, -, (hs | ⟨-, hs, -⟩) | ⟨b, n, v, -, hw⟩⟩ := transact_eq tr { s with turns := rest }
    · exact ⟨_, h, by rw [e, hs, hr]; rfl⟩
    · exact ⟨_, h, by rw [e, hs, hr]; rfl⟩
    · refine ⟨_, h, ?_⟩
      rw [e, hr]
      cases hw <;> rfl

/-- No step of the run. -/
@[simp] theorem run_zero (s : State) : Sys2Proof.core.run 0 s = .next s := rfl

/-- The first step of a run. -/
theorem run_succ {s t : State} (k : Nat) (h : step s = .next t) :
    Sys2Proof.core.run (k + 1) s = Sys2Proof.core.run k t := by
  have h' : Sys2Proof.core.step s = .next t := h
  simp only [Host.Core.run]
  rw [h']

end Sys2Proof.Machine
end

