-- ==== Sys2Proof/Tests/Slice0.lean ====
section
/-! SUPPORT. Tests and witnesses. The expected results of the tests are those of 95_test_vectors.md
and of the rules named; each `witness_<Name>` shows a concrete case that meets the hypotheses of the
obligation of that name, one clause after another, at boundary values. -/

set_option autoImplicit false

namespace Sys2Proof.Tests

open Sys2Proof.Machine

/-- The instance with W = 64 of 95_test_vectors.md, after reset, with six registers set. -/
def small (a b c d e f : Nat) : State :=
  { State.reset with
    cfg := ⟨2⟩, x := #v[a, b, c, d, e, f, 0, 0, 0, 0, 0, 0, 0, 0, 0, 0] }

/-- Idle with these moves planned. -/
def planned (l : List Turn) (s : State) : State := { s with turns := l }

/-- The word in flight, with these moves planned. -/
def inFlight (w : Word) (l : List Turn) (s : State) : State := { s.accept w with turns := l }

/-- A register, the flag word and the STATUS word of the state a step answers. -/
def seen (r : Reg) : Host.Outcome State Fault Refusal → Option (Nat × Word × Word)
  | .next t => some (t.reg r, t.flagsWord, t.statusWord)
  | .fault _ => none
  | .refused _ => none

/-! ## Well-formedness: the one check, R99, in its three ways to fail -/

theorem test_wellFormed_egcd : (Instr.egcd 2 0 1 3 4).wellFormed = true := by decide
theorem test_illFormed_egcd_rd_rc : (Instr.egcd 2 0 1 2 4).wellFormed = false := by decide
theorem test_illFormed_egcd_rd_re : (Instr.egcd 2 0 1 3 2).wellFormed = false := by decide
theorem test_illFormed_egcd_rc_re : (Instr.egcd 2 0 1 3 3).wellFormed = false := by decide

/-! ## Decoding (95_test_vectors.md section 2; the bits written out from 30_encoding.md R91, R96) -/

theorem test_decode_nop : decode 0b00000000000000000000000000000000 = .ok .nop := by decide
theorem test_decode_ldi :
    decode 0b00000001000100010000000000000001 = .ok (.ldi 1 65537) := by decide
theorem test_decode_ldi_ones : decode 0x01FFFFFF = .ok (.ldi 15 1048575) := by decide
theorem test_decode_mov : decode 0b00000010011100110000000000000000 = .ok (.mov 7 3) := by decide
theorem test_decode_add :
    decode 0b00010000001000000001000000000000 = .ok (.add 2 0 1) := by decide
theorem test_decode_sub :
    decode 0b00010001111111111110000000000000 = .ok (.sub 15 15 14) := by decide
theorem test_decode_cmp : decode 0b00010010000000100011000000000000 = .ok (.cmp 2 3) := by decide
theorem test_decode_modmul :
    decode 0b00100000000100000000001000000000 = .ok (.modmul 1 0 0 2) := by decide
theorem test_decode_modexp :
    decode 0b00110000001100000001001000000000 = .ok (.modexp 3 0 1 2) := by decide
theorem test_decode_egcd :
    decode 0b01000000001000000001001101000000 = .ok (.egcd 2 0 1 3 4) := by decide
theorem test_decode_modinv :
    decode 0b01000001001000000000000100000000 = .ok (.modinv 2 0 1) := by decide
theorem test_decode_prime : decode 0b01010000000001010000000000000000 = .ok (.prime 5) := by decide
theorem test_decode_mrround :
    decode 0b01010001000000000001000000000000 = .ok (.mrround 0 1) := by decide

/-- The must-be-zero examples of the decoder table. -/
theorem test_decode_mustBeZero :
    decode 0x00000001 = .error .mustBeZero ∧
    decode 0x00100000 = .error .mustBeZero ∧
    decode 0x02731000 = .error .mustBeZero ∧
    decode 0x02730001 = .error .mustBeZero ∧
    decode 0x10201100 = .error .mustBeZero ∧
    decode 0x10201001 = .error .mustBeZero ∧
    decode 0x12300000 = .error .mustBeZero ∧
    decode 0x12001010 = .error .mustBeZero ∧
    decode 0x20100210 = .error .mustBeZero := by
  decide
theorem test_decode_mustBeZero_units :
    decode 0x2010020F = .error .mustBeZero ∧
    decode 0x30301201 = .error .mustBeZero ∧
    decode 0x40201341 = .error .mustBeZero ∧
    decode 0x41201100 = .error .mustBeZero ∧
    decode 0x41200110 = .error .mustBeZero ∧
    decode 0x50150000 = .error .mustBeZero ∧
    decode 0x50012000 = .error .mustBeZero ∧
    decode 0x51101000 = .error .mustBeZero ∧
    decode 0x51001100 = .error .mustBeZero := by
  decide

/-- The opcode examples of the decoder table. -/
theorem test_decode_unknown :
    decode 0x03000000 = .error .unknownOpcode ∧
    decode 0x13000000 = .error .unknownOpcode ∧
    decode 0x21000000 = .error .unknownOpcode ∧
    decode 0x31000000 = .error .unknownOpcode ∧
    decode 0x42000000 = .error .unknownOpcode ∧
    decode 0x52000000 = .error .unknownOpcode ∧
    decode 0x60000000 = .error .unknownOpcode ∧
    decode 0x80000000 = .error .unknownOpcode ∧
    decode 0xFF000000 = .error .unknownOpcode ∧
    decode 0xFFFFFFFF = .error .unknownOpcode := by
  decide

/-- EGCD words: three with equal destinations, two that share destinations with sources only. -/
theorem test_verdict_egcd :
    verdict 0x40201240 = .error .egcdDests ∧ verdict 0x40201330 = .error .egcdDests ∧
    verdict 0x40301340 = .error .egcdDests ∧ verdict 0x40001340 = .ok (.egcd 0 0 1 3 4) ∧
    verdict 0x40FFF0E0 = .ok (.egcd 15 15 15 0 14) := by decide

/-! ## One step of each command on W = 64 (95_test_vectors.md sections 3 to 9) -/

/-- The largest value of a 64-bit register. -/
def max64 : Nat := 0xFFFFFFFFFFFFFFFF

theorem test_nop_from_reset :
    seen 0 (step (State.reset.withFetchWord 32 0)) = some (0, 0, 2) := by decide
theorem test_ldi_clears_high_bits :
    seen 3 (exec (.ldi 3 1048575) (small 0 0 0 max64 0 0)) = some (0xFFFFF, 0, 2) := by decide
theorem test_mov : seen 7 (exec (.mov 7 3) (small 0 0 0 2790 0 0)) = some (2790, 0, 2) := by decide
theorem test_add_wraps :
    seen 2 (exec (.add 2 0 1) (small max64 1 9 0 0 0)) = some (0, 3, 2) := by decide
theorem test_add_carry :
    seen 0 (exec (.add 0 0 0) (small max64 0 0 0 0 0)) = some (0xFFFFFFFFFFFFFFFE, 2, 2) := by decide
theorem test_sub_borrow :
    seen 2 (exec (.sub 2 0 1) (small 5 7 0 0 0 0)) = some (0xFFFFFFFFFFFFFFFE, 2, 2) := by decide
theorem test_sub_equal :
    seen 1 (exec (.sub 1 0 1) (small 5 5 0 0 0 0)) = some (0, 1, 2) := by decide
theorem test_cmp_below :
    seen 0 (exec (.cmp 0 1) (small 3232 3233 0 0 0 0)) = some (3232, 2, 2) := by decide
theorem test_cmp_equal :
    seen 0 (exec (.cmp 0 1) (small 3233 3233 0 0 0 0)) = some (3233, 1, 2) := by decide
theorem test_modmul :
    seen 3 (exec (.modmul 3 0 1 2) (small max64 2 (2 ^ 63) 0 0 0)) =
      some (0x7FFFFFFFFFFFFFFE, 0, 2) := by decide
theorem test_modmul_zero_modulus :
    seen 3 (exec (.modmul 3 0 1 2) (small 10 10 0 8 0 0)) = some (8, 0, 0x22) := by decide
theorem test_modexp :
    seen 3 (exec (.modexp 3 0 1 2) (small 7 128 13 0 0 0)) = some (3, 0, 2) := by decide
theorem test_modexp_zero_exponent :
    seen 3 (exec (.modexp 3 0 1 2) (small 0 0 7 0 0 0)) = some (1, 0, 2) := by decide
theorem test_egcd_x :
    seen 3 (exec (.egcd 2 0 1 3 4) (small 240 46 0 0 0 0)) = some (9, 4, 2) := by decide
theorem test_egcd_y :
    seen 4 (exec (.egcd 2 0 1 3 4) (small 46 240 0 0 0 0)) = some (9, 8, 2) := by decide
theorem test_modinv :
    seen 2 (exec (.modinv 2 0 1) (small 17 3120 0 0 0 0)) = some (2753, 0, 2) := by decide
theorem test_modinv_noinv :
    seen 2 (exec (.modinv 2 0 1) (small 4 8 5 0 0 0)) = some (5, 0, 0x32) := by decide
theorem test_prime_97 :
    seen 5 (exec (.prime 5) (small 0 0 0 0 0 97)) = some (97, 0x10, 2) := by decide
theorem test_prime_91 :
    seen 5 (exec (.prime 5) (small 0 0 0 0 0 91)) = some (91, 0, 2) := by decide
theorem test_mrround_liar :
    seen 0 (exec (.mrround 0 1) (small 91 9 0 0 0 0)) = some (91, 0x10, 2) := by decide
theorem test_mrround_range :
    seen 0 (exec (.mrround 0 1) (small 97 1 0 0 0 0)) = some (97, 0, 0x42) := by decide

/-! ## The circuits and the host's functions (95_test_vectors.md sections 4, 11) -/

theorem test_mulCircuit : mulCircuit 8 5 6 7 = 2 := by decide
theorem test_divCircuit : divCircuit 8 240 46 = (5, 10) := by decide
theorem test_prng_first_step :
    prngState (prngInit 0) = 0x0000000002000001 ∧
    prngWord (prngState (prngInit 0)) = 0x47E4CE4B896CDD1D := by decide
theorem test_drawBits :
    drawBits 1 16 = some (0x0004004000802801, 0x9D1D) := by decide

/-- Toy RSA of 95_test_vectors.md sections 5 and 12.1, serialised to the two bytes of n. -/
theorem test_encrypt_decrypt :
    encryptMessage ⟨2⟩ [65] 17 3233 = .ok 2790 ∧
    decryptMessage ⟨2⟩ 2790 2753 3233 = .ok [0, 65] := by decide

/-- 95_test_vectors.md section 1.5, and the zero modulus (50_host_software.md R227). -/
theorem test_message_bound_and_zero_modulus :
    encryptMessage ⟨2⟩ [0x0C, 0xA0] 17 3233 = .ok 3232 ∧
    encryptMessage ⟨2⟩ [0x0C, 0xA1] 17 3233 = .error .messageTooLarge ∧
    decryptMessage ⟨2⟩ 5 3 0 = .error .invalidModulus := by decide

/-- 50_host_software.md R219, R215: key sizes and primes that do not fit are refused. -/
theorem test_width_refused :
    (generateKeys ⟨2⟩ 40 ⟨9, 9, 9⟩ 1).result = .error .outsideModel ∧
    (generatePrime ⟨2⟩ 72 9 1 Attempts.zero).result = .error .outsideModel := by decide

/-- p = 157 is drawn first from seed 1 and twice again as q, and p is kept (50_host_software.md R218,
R220; the numbers of a separate evaluation of R211 to R218 outside Lean). -/
theorem test_redraw_q :
    (generateKeys ⟨2⟩ 8 ⟨40, 3, 3⟩ 1).result = .ok ⟨23393, 65537, 15233⟩ ∧
    (generateKeys ⟨2⟩ 8 ⟨40, 3, 3⟩ 1).attempts = ⟨10, 2, 0⟩ ∧
    (generateKeys ⟨2⟩ 8 ⟨40, 1, 3⟩ 1).result = .error .equalPrimes := by decide

/-! ## The bus (95_test_vectors.md section 10) -/

theorem test_limb_write :
    (memWrite 0x2004 .word 1 (small 1 0 0 0 0 0)).2 = small 0x0000000100000001 0 0 0 0 0 := by decide
theorem test_absent_limb :
    memWrite 0x2008 .word 0xFFFFFFFF (small 1 0 0 0 0 0) = (⟨.okay, 0⟩, small 1 0 0 0 0 0) := by
  decide
theorem test_window_read_while_busy :
    (memRead 0x2000 .word (inFlight 0 [] (small 1 0 0 0 0 0))).1 = ⟨.okay, 0⟩ ∧
    (memRead 0x2000 .word (inFlight 0 [] (small 1 0 0 0 0 0))).2.istat = 4 := by decide
theorem test_misaligned_while_busy :
    memRead 0x2002 .word (inFlight 0 [] (small 1 0 0 0 0 0)) =
      (⟨.error, 0⟩, inFlight 0 [] (small 1 0 0 0 0 0)) := by decide
theorem test_soft_reset_abandons :
    (memWrite 0x008 .word 1 (inFlight 0x30301200 [] (small 7 1 2 0 0 0))).2 =
      small 0 0 0 0 0 0 := by decide
theorem test_irq :
    ({ small 0 0 0 0 0 0 with ien := 4, istat := 3 } : State).irq = false ∧
    ({ small 0 0 0 0 0 0 with ien := 4, istat := 4 } : State).irq = true := by decide

/-- From reset, a planned CMD write and its completion run a command (95_test_vectors.md section 10,
10_state.md R49; log entry 3). -/
theorem test_run_from_reset :
    seen 1 (Sys2Proof.core.run 2 (planned
      [.transaction (.write 0x010 .word 0x01110001), .completion] State.reset)) =
      some (65537, 0, 2) := by decide

/-! ## Witnesses of the obligations' hypotheses -/

/-- The invariant at W = 64, with a register at its largest value. -/
theorem small_inv : (small max64 5 0 0 0 0).Inv :=
  ⟨by decide, by decide, by decide, by decide, nofun⟩

theorem witness_ResetLeavesTheStatedValues : (0x00000001 : Word).getLsbD 0 = true := by decide

theorem witness_EveryStepKeepsTheInvariant :
    (small max64 5 0 0 0 0).Inv ∧
    ∃ t, step (planned [.transaction (.write 0x2204 .word 0xFFFFFFFF)] (small max64 5 0 0 0 0)) =
      .next t ∧ t.reg 1 = 0xFFFFFFFF00000005 := ⟨small_inv, _, rfl, by decide⟩

theorem witness_StepKeepsTheInstance : ∃ t,
    step (planned [.pinReset] (small 1 2 3 4 5 6)) = .next t ∧ t.x ≠ (small 1 2 3 4 5 6).x :=
  ⟨_, rfl, by decide⟩

theorem witness_EncodeOfDecodeIsTheWord : decode 0x40FFF0E0 = .ok (.egcd 15 15 15 0 14) := by decide

/-- Also the witness of the last clause of `DecoderFollowsMaskAndMatch`. -/
theorem witness_IllegalWordIsAcceptedAndFails :
    (∀ c ∈ Command.all, (0x00000001 : Word) &&& c.mask ≠ c.pattern) ∧
    (∀ c : Command, c ∈ Command.all) ∧
    (planned [.transaction (.write 0x010 .word 1), .completion] State.reset).busy = false :=
  ⟨by decide, by intro c; cases c <;> decide, rfl⟩

theorem witness_StepRunsTheDecodedCommand :
    (inFlight 0x10201000 [] (small 7 5 0 0 0 0)).busy = true ∧
    decode (inFlight 0x10201000 [] (small 7 5 0 0 0 0)).cmdr = .ok (.add 2 0 1) ∧
    (inFlight 0x10201000 [] (small 7 5 0 0 0 0)).turns = [] ∧
    (inFlight 0x10201000 [.completion] (small 7 5 0 0 0 0)).turns = .completion :: [] := by decide

theorem witness_AcceptanceStartsTheCommand :
    (planned [.transaction (.write 0x010 .word 0xFFFFFFFF)] State.reset).busy = false := by decide

theorem witness_CmdWriteWhileBusyIsDropped :
    (inFlight 0 [.transaction (.write 0x010 .word 0)] State.reset).busy = true := by decide

theorem witness_ErrorCompletionWritesNothing :
    (∃ t, complete (inFlight 0x20301200 [] (small 10 10 0 0 0 0)) = .next t ∧ t.errc = .invmod) ∧
    ∃ t, complete (inFlight 0xFFFFFFFF [] State.reset) = .next t ∧ t.errc = .illegal :=
  ⟨⟨_, rfl, by decide⟩, _, rfl, by decide⟩

theorem witness_FlagsAreWrittenAsTabled :
    (∃ t, exec (.mov 1 0) (small 7 5 0 0 0 0) = .next t ∧ writesZC (.mov 1 0) = false ∧
      writesSigns (.mov 1 0) = false ∧ writesP (.mov 1 0) = false) ∧
    ∃ t, exec (.mrround 0 1) (small 97 1 0 0 0 0) = .next t ∧ t.errc ≠ .ok ∧
      writesP (.mrround 0 1) = true := ⟨⟨_, rfl, by decide⟩, _, rfl, by decide⟩

theorem witness_FlagsAreOutputsOnly :
    (∃ t, exec (.add 2 0 1) (small max64 1 0 0 0 0) = .next t ∧ writesZC (.add 2 0 1) = true ∧
      t.errc = .ok) ∧
    (∃ t, step (inFlight 0x10201000 [] (small max64 1 0 0 0 0)) = .next t ∧
      t.flags ≠ (small max64 1 0 0 0 0).flags) ∧
    ∃ t, step (planned [.pinReset] ((small 0 0 0 0 0 0).setFlags ⟨true, true, true, true, true⟩)) =
      .next t ∧ t.flags ≠ ⟨true, true, true, true, true⟩ :=
  ⟨⟨_, rfl, by decide⟩, ⟨_, rfl, by decide⟩, _, rfl, by decide⟩

theorem witness_RegistersChangeOnlyByTheirWriters :
    (∃ t, step (inFlight 0x10201000 [] (small 7 5 0 0 0 0)) = .next t ∧ t.reg 2 ≠ 0) ∧
    (∃ t, step (planned [.transaction (.write 0x3E04 .word 1)] (small 7 5 0 0 0 0)) = .next t ∧
      t.reg 15 ≠ 0) ∧
    (∃ t, step (planned [.pinReset] (small 7 5 0 0 0 0)) = .next t ∧ t.reg 0 ≠ 7) ∧
    ∃ t, step (planned [.transaction (.write 0x008 .word 1)] (small 7 5 0 0 0 0)) = .next t ∧
      t.reg 0 ≠ 7 :=
  ⟨⟨_, rfl, by decide⟩, ⟨_, rfl, by decide⟩, ⟨_, rfl, by decide⟩, _, rfl, by decide⟩

theorem witness_OutcomeDependsOnSourcesAlone :
    (small 7 5 0 0 0 0).cfg = (small 7 5 9 9 9 9).cfg ∧
    (∀ r ∈ sources (.add 2 0 1), (small 7 5 0 0 0 0).reg r = (small 7 5 9 9 9 9).reg r) := by decide

theorem witness_WindowOutsideDestinationsIsUnchanged :
    (∃ t, exec (.add 2 0 1) (small 7 5 0 0 0 0) = .next t) ∧
    (0x2000 ≤ (0x23FC : Addr).toNat ∧
      ∀ r ∈ dests (.add 2 0 1), ((0x23FC : Addr).toNat - 0x2000) / 0x200 ≠ r.val) ∧
    (0x2000 ≤ (0x2600 : Addr).toNat ∧
      ∀ r ∈ dests (.add 2 0 1), ((0x2600 : Addr).toNat - 0x2000) / 0x200 ≠ r.val) :=
  ⟨⟨_, rfl⟩, by decide⟩

theorem witness_EveryCommandCompletes :
    (inFlight 0x10201000 [.transaction (.write 0x010 .word 0)] (small 7 5 0 0 0 0)).busy = true ∧
    ∀ m ∈ (inFlight 0x10201000 [.transaction (.write 0x010 .word 0)] (small 7 5 0 0 0 0)).turns,
      m.isReset = false := by decide

theorem witness_IdleBlockHoldsItsState : State.reset.busy = false ∧ State.reset.turns = [] := by
  decide

theorem witness_CommandInFlightIsUndisturbed :
    (inFlight 0x10201000 ([Transaction.read 0x2000 .word, .write 0x010 .word 0].map Turn.transaction
      ++ .completion :: []) (small 7 5 0 0 0 0)).busy = true ∧
    ∀ tr ∈ [Transaction.read 0x2000 .word, .write 0x010 .word 0], tr.isSoftReset = false := by decide

/-- A soft reset presented at the pins. -/
def softResetPins : Pins := ⟨true, true, true, 2, 0x008, 1⟩

theorem witness_ClockEdgeIsTransactionThenCompletion :
    softResetPins.rstN = true ∧ softResetPins.req = true ∧
    softResetPins.transaction.isSoftReset = true := by decide

theorem witness_NopCompletesAndWritesNothing :
    slice 0x00000001 31 24 = 0 ∧ slice 0x00800000 31 24 = 0 ∧
    (planned [.transaction (.write 0x010 .word 0), .completion] State.reset).busy = false := by decide

theorem witness_LdiLoadsTheImmediate :
    slice 0x01000000 31 24 = 0x01 ∧ slice 0x01FFFFFF 31 24 = 0x01 := by decide

theorem witness_ExactResultIsRecoverable :
    (small max64 5 0 0 0 0).Inv ∧
    (∃ t, exec (.add 2 0 1) (small max64 5 0 0 0 0) = .next t ∧ t.flags.c = true) ∧
    ∃ u, exec (.sub 2 0 1) (small max64 5 0 0 0 0) = .next u ∧ u.flags.c = false :=
  ⟨small_inv, ⟨_, rfl, by decide⟩, _, rfl, by decide⟩

theorem witness_SubThenAddRestoresTheMinuend :
    (small max64 5 0 0 0 0).Inv ∧ (2 : Reg) ≠ 1 := ⟨small_inv, by decide⟩

theorem witness_CmpSetsOrderFlags :
    ∃ u, exec (.sub 2 0 1) (small 0 max64 0 0 0 0) = .next u := ⟨_, rfl⟩

theorem witness_ModmulWritesTheProductResidue :
    (small 10 10 0 0 0 0).reg 2 = 0 ∧ (small 12 12 1 0 0 0).reg 2 ≠ 0 ∧
    (small 1 1 max64 0 0 0).reg 2 ≠ 0 := by decide

theorem witness_ModexpWritesThePowerResidue :
    (small 2 3 0 0 0 0).reg 2 = 0 ∧ (small 0 0 1 0 0 0).reg 2 ≠ 0 := by decide

theorem witness_SquareAndMultiplyIsThePower : 0 < 1 ∧ 0 < max64 := by decide

theorem witness_MultiplierCircuitIsMulmod : 5 < 2 ^ 3 ∧ 6 < 2 ^ 3 ∧ 0 < 7 ∧ 7 < 2 ^ 3 := by decide

theorem witness_DividerCircuitIsDivmod : max64 < 2 ^ 64 ∧ 0 < 1 := by decide

theorem witness_ModmulGivesPlainProduct :
    (small 0xFFFFFFFF 0xFFFFFFFF max64 0 0 0).cfg.legal ∧
    (small 0xFFFFFFFF 0xFFFFFFFF max64 0 0 0).reg 2 =
      2 ^ (small 0xFFFFFFFF 0xFFFFFFFF max64 0 0 0).width - 1 ∧
    (small 0xFFFFFFFF 0xFFFFFFFF max64 0 0 0).reg 0 <
      2 ^ ((small 0xFFFFFFFF 0xFFFFFFFF max64 0 0 0).width / 2) := by decide

theorem witness_EgcdDestinationsMustDiffer :
    ((0 : Reg) ≠ 3 ∧ (0 : Reg) ≠ 4 ∧ (3 : Reg) ≠ 4) ∧
    ((2 : Reg) = 2 ∨ (2 : Reg) = 4 ∨ (2 : Reg) = 4) ∧
    ((2 : Reg) = 3 ∨ (2 : Reg) = 2 ∨ (3 : Reg) = 2) ∧
    ((2 : Reg) = 3 ∨ (2 : Reg) = 3 ∨ (3 : Reg) = 3) := by decide

theorem witness_EgcdWritesGcdAndBezoutPair : (0 : Reg) ≠ 3 ∧ (0 : Reg) ≠ 15 ∧ (3 : Reg) ≠ 15 := by
  decide

theorem witness_EuclidLoopIterationBound : 3 < 2 ^ 2 ∧ 2 < 2 ^ 2 := by decide

theorem witness_ModinvWritesTheInverse :
    (small 9 0 0 0 0 0).reg 1 = 0 ∧
    ((small 0 7 0 0 0 0).reg 1 ≠ 0 ∧
      Nat.gcd ((small 0 7 0 0 0 0).reg 0) ((small 0 7 0 0 0 0).reg 1) ≠ 1) ∧
    (small 0 1 0 0 0 0).reg 1 ≠ 0 ∧
    Nat.gcd ((small 0 1 0 0 0 0).reg 0) ((small 0 1 0 0 0 0).reg 1) = 1 := by decide

theorem witness_ScreeningAndDecomposition :
    screen 5 = .test ∧ 5 - 1 = 2 ^ 2 * 1 ∧ 1 % 2 = 1 ∧ 5 < 2 ^ 3 := by decide

theorem witness_PrimeSetsPByFiveWitnesses :
    (small 1 0 0 0 0 0).reg 0 < 2 ∧ (small 3 0 0 0 0 0).reg 0 = 3 ∧
    (2 < (small 4 0 0 0 0 0).reg 0 ∧ (small 4 0 0 0 0 0).reg 0 % 2 = 0) ∧
    5 ≤ (small 5 0 0 0 0 0).reg 0 ∧ (small 5 0 0 0 0 0).reg 0 - 1 = 2 ^ 2 * 1 := by decide

theorem witness_MrroundSetsPByOneWitness :
    (small 0 1 0 0 0 0).reg 1 < 2 ∧ 2 ≤ (small 91 2 0 0 0 0).reg 1 ∧
    5 ≤ (small 91 2 0 0 0 0).reg 0 ∧ (small 91 2 0 0 0 0).reg 0 - 1 = 2 ^ 1 * 45 ∧ 45 % 2 = 1 := by
  decide

theorem witness_PrimalityTestNeverRejectsAPrime :
    Nat.Prime ((small 97 2 0 0 0 0).reg 0) ∧ 2 ≤ (small 97 2 0 0 0 0).reg 1 :=
  ⟨by rw [show (small 97 2 0 0 0 0).reg 0 = 97 from rfl]; norm_num, by decide⟩

theorem witness_PrimeReportsTheKnownComposite :
    (small 2152302898747 0 0 0 0 0).reg 0 = 2152302898747 := by decide

theorem witness_PrimeIsTheAndOfFiveRounds :
    (0 : Reg) ≠ 1 ∧ ∃ t, exec (.prime 0) (small 97 0 0 0 0 0) = .next t :=
  ⟨by decide, _, rfl⟩

theorem witness_GeneratedKeysFitTheirPrimes :
    (generateKeys ⟨2⟩ 8 ⟨40, 3, 3⟩ 4).result = .ok ⟨36391, 65537, 21473⟩ := by decide

/-- Both clauses of `ReadsAnswerAsTabled` and `WritesActAsTabled` on the window, at both sides of the
last limb of W = 64, and the clause while BUSY. -/
theorem witness_ReadsAnswerAsTabled :
    (small 0 0 0 0 0 0).busy = false ∧ 1 < 128 ∧ 1 < (small 0 0 0 0 0 0).cfg.limbs ∧
    (small 0 0 0 0 0 0).cfg.limbs ≤ 2 ∧ 127 < 128 ∧
    (inFlight 0 [] (small 0 0 0 0 0 0)).busy = true := by decide

theorem witness_WritesActAsTabled :
    (0xFFFFFFFE : Word).getLsbD 0 = false ∧ (1 : Word).getLsbD 0 = true ∧
    (small 0 0 0 0 0 0).busy = false ∧ 1 < (small 0 0 0 0 0 0).cfg.limbs ∧
    (small 0 0 0 0 0 0).cfg.limbs ≤ 127 ∧ (inFlight 0 [] (small 0 0 0 0 0 0)).busy = true := by
  decide

theorem witness_LimbWriteThenRead :
    (small 0 0 0 0 0 0).cfg.legal ∧ (small 0 0 0 0 0 0).busy = false ∧
    1 < (small 0 0 0 0 0 0).cfg.limbs ∧ 127 < 128 := by decide

theorem witness_RegisterIsTheSumOfItsLimbs :
    (small max64 5 0 0 0 0).Inv ∧ (small max64 5 0 0 0 0).busy = false := ⟨small_inv, rfl⟩

theorem witness_BusErrorHasNoEffect :
    Size.half ≠ .word ∧ (0x2002 : Addr).toNat % 4 ≠ 0 ∧
    (0x20 ≤ (0x0020 : Addr).toNat ∧ (0x0020 : Addr).toNat < 0x2000) ∧
    (0x20 ≤ (0x1FFC : Addr).toNat ∧ (0x1FFC : Addr).toNat < 0x2000) ∧
    ¬(Size.word ≠ .word ∨ (0x2000 : Addr).toNat % 4 ≠ 0 ∨
      (0x20 ≤ (0x2000 : Addr).toNat ∧ (0x2000 : Addr).toNat < 0x2000)) := by decide

theorem witness_HazardIsTheWindowOrCmdWhileBusy :
    (inFlight 0 [] State.reset).busy = true ∧ 0x2000 ≤ (0x2000 : Addr).toNat ∧
    (0x010 : Addr).toNat % 4 = 0 ∧
    ((0x01C : Addr).toNat < 0x20 ∧ (0x01C : Addr) ≠ 0x00C ∧ (0x01C : Addr) ≠ 0x010) ∧
    ((0x00C : Addr).toNat < 0x20 ∧ (0x00C : Addr).toNat % 4 = 0 ∧ (0x00C : Addr) ≠ 0x010) ∧
    ∃ t, step (inFlight 0 [.transaction (.read 0x3FFC .word)] State.reset) = .next t ∧
      (inFlight 0 [] State.reset).istat.getLsbD 2 = false ∧ t.istat.getLsbD 2 = true :=
  ⟨by decide, by decide, by decide, by decide, by decide, _, rfl, by decide⟩

theorem witness_PendingBitsAreSticky :
    ((inFlight 0 [] State.reset).busy = true ∧ (0x3FFC : Addr).toNat % 4 = 0 ∧
      0x2000 ≤ (0x3FFC : Addr).toNat) ∧
    (∃ t, complete (inFlight 0xFFFFFFFF [] State.reset) = .next t ∧ t.errc ≠ .ok) ∧
    (∃ t, step (planned [.transaction (.write 0x01C .word 1)] { State.reset with istat := 7 }) =
      .next t ∧ t.istat.getLsbD 0 = false) ∧
    (∃ t, step (planned [.pinReset] { State.reset with istat := 7 }) = .next t ∧
      t.istat.getLsbD 2 = false) ∧
    ∃ t, step (planned [.transaction (.write 0x008 .word 1)] { State.reset with istat := 7 }) =
      .next t ∧ t.istat.getLsbD 1 = false :=
  ⟨by decide, ⟨_, rfl, by decide⟩, ⟨_, rfl, by decide⟩, ⟨_, rfl, by decide⟩, _, rfl, by decide⟩

end Sys2Proof.Tests
end

section
/-! PROOFS. The state family (10_state.md): reset, acceptance, flags, pending bits, clock edge. -/

namespace Sys2Proof.Machine

/-! ## What a command reads and which flags it writes (R26, R27) -/

/-- States that look alike to every command: the same configuration and the same registers. -/
structure SameOperands (s u : State) : Prop where
  cfg : u.cfg = s.cfg
  x : u.x = s.x

theorem SameOperands.reg {s u : State} (h : SameOperands s u) (r : Reg) : u.reg r = s.reg r :=
  State.reg_congr h.x r

theorem SameOperands.width {s u : State} (h : SameOperands s u) : u.width = s.width := by
  rw [State.width, State.width, h.cfg]

theorem SameOperands.wrap {s u : State} (h : SameOperands s u) (v : Int) : u.wrap v = s.wrap v := by
  rw [State.wrap, State.wrap, h.width]

/-- The flag update g is one of the row of command i: it keeps the flags outside the row, and what
it puts into the flags of the row does not depend on what they held (10_state.md R26). -/
structure FlagUpdate (i : Instr) (g : Flags → Flags) : Prop where
  keepsZC : writesZC i = false → ∀ f, (g f).z = f.z ∧ (g f).c = f.c
  keepsSigns : writesSigns i = false → ∀ f, (g f).xneg = f.xneg ∧ (g f).yneg = f.yneg
  keepsP : writesP i = false → ∀ f, (g f).p = f.p
  setsZC : writesZC i = true → ∀ f f', (g f).z = (g f').z ∧ (g f).c = (g f').c
  setsSigns : writesSigns i = true → ∀ f f', (g f).xneg = (g f').xneg ∧ (g f).yneg = (g f').yneg
  setsP : writesP i = true → ∀ f f', (g f).p = (g f').p

/-- The outcome of command i in every state with the operands of s: an error completion with one
code, or one register file and one update of the flags, followed by success. -/
inductive Effect (i : Instr) (s : State) : Prop
  | fails (e : ErrCode) (he : e ≠ .ok)
      (h : ∀ u, SameOperands s u → exec i u = .next (u.errorCompletion e))
  | succeeds (x : Vector Nat 16) (g : Flags → Flags) (hg : FlagUpdate i g)
      (h : ∀ u, SameOperands s u → exec i u = .next { u with x := x, flags := g u.flags }.succeed)

/-- A command without a row in the table of R26 keeps every flag. -/
theorem flagUpdate_id {i : Instr} (hz : writesZC i = false) (hs : writesSigns i = false)
    (hp : writesP i = false) : FlagUpdate i id :=
  ⟨fun _ _ => ⟨rfl, rfl⟩, fun _ _ => ⟨rfl, rfl⟩, fun _ _ => rfl, by simp [hz], by simp [hs],
    by simp [hp]⟩

theorem flagUpdate_zc {i : Instr} (z c : Bool) (hs : writesSigns i = false)
    (hp : writesP i = false) (hz : writesZC i = true) :
    FlagUpdate i fun f => { f with z := z, c := c } :=
  ⟨by simp [hz], fun _ _ => ⟨rfl, rfl⟩, fun _ _ => rfl, fun _ _ _ => ⟨rfl, rfl⟩, by simp [hs],
    by simp [hp]⟩

theorem flagUpdate_ofVerdict {i : Instr} (b : Bool) (hz : writesZC i = false)
    (hs : writesSigns i = false) (hp : writesP i = true) : FlagUpdate i fun f => f.ofVerdict b :=
  ⟨fun _ _ => ⟨rfl, rfl⟩, fun _ _ => ⟨rfl, rfl⟩, by simp [hp], by simp [hz], by simp [hs],
    fun _ _ _ => rfl⟩

theorem flagUpdate_ofBezout (rd ra rb rc re : Reg) (x y : Int) :
    FlagUpdate (.egcd rd ra rb rc re) fun f => f.ofBezout x y :=
  ⟨fun _ _ => ⟨rfl, rfl⟩, nofun, fun _ _ => rfl, nofun, fun _ _ _ => ⟨rfl, rfl⟩, nofun⟩

/-- One register written and no flag, with a value that is a function of the operands. -/
theorem effect_setReg {i : Instr} {s : State} (rd : Reg) (v : Nat) (hz : writesZC i = false)
    (hs : writesSigns i = false) (hp : writesP i = false)
    (h : ∀ u, SameOperands s u → exec i u = .next (u.setReg rd v).succeed) : Effect i s :=
  .succeeds (s.x.set rd v) id (flagUpdate_id hz hs hp) fun u hu => by rw [h u hu, ← hu.x]; rfl

/-- Everything a command does is fixed by the configuration and the registers, but for the flags it
keeps (10_state.md R27). -/
theorem exec_effect (i : Instr) (s : State) : Effect i s := by
  cases i with
  | nop => exact .succeeds s.x id (flagUpdate_id rfl rfl rfl) fun u hu => by rw [← hu.x]; rfl
  | ldi rd imm => exact effect_setReg rd _ rfl rfl rfl fun _ _ => rfl
  | mov rd ra => exact effect_setReg rd (s.reg ra) rfl rfl rfl fun u hu => by rw [← hu.reg]; rfl
  | add rd ra rb =>
    exact .succeeds (s.x.set rd (s.wrap (s.reg ra + s.reg rb)))
      (fun f => f.ofAdd s.width (s.reg ra) (s.reg rb)) (flagUpdate_zc _ _ rfl rfl rfl)
      fun u hu => by rw [← hu.x, ← hu.reg, ← hu.reg, ← hu.wrap, ← hu.width]; rfl
  | sub rd ra rb =>
    exact .succeeds (s.x.set rd (s.wrap (s.reg ra - s.reg rb)))
      (fun f => f.ofSub (s.reg ra) (s.reg rb)) (flagUpdate_zc _ _ rfl rfl rfl) fun u hu => by
        rw [← hu.x, ← hu.reg, ← hu.reg, ← hu.wrap]; rfl
  | cmp ra rb =>
    exact .succeeds s.x (fun f => f.ofCmp (s.reg ra) (s.reg rb)) (flagUpdate_zc _ _ rfl rfl rfl)
      fun u hu => by rw [← hu.x, ← hu.reg, ← hu.reg]; rfl
  | modmul rd ra rb rc =>
    by_cases h : s.reg rc = 0
    · exact .fails .invmod nofun fun u hu => if_pos (by rw [hu.reg, h])
    · exact effect_setReg rd (mulmod (s.reg ra) (s.reg rb) (s.reg rc)) rfl rfl rfl fun u hu => by
        rw [← hu.reg] at h
        rw [exec, execModmul, if_neg h, hu.reg, hu.reg, hu.reg]
  | modexp rd ra rb rc =>
    by_cases h : s.reg rc = 0
    · exact .fails .invmod nofun fun u hu => if_pos (by rw [hu.reg, h])
    · exact effect_setReg rd (modpow (s.reg ra) (s.reg rb) (s.reg rc)) rfl rfl rfl fun u hu => by
        rw [← hu.reg] at h
        rw [exec, execModexp, if_neg h, hu.reg, hu.reg, hu.reg]
  | egcd rd ra rb rc re =>
    by_cases h : rd = rc ∨ rd = re ∨ rc = re
    · exact .fails .illegal nofun fun u _ => if_pos h
    · exact .succeeds
        (((s.x.set rd (egcdG (s.reg ra) (s.reg rb))).set
          rc (egcdX (s.reg ra) (s.reg rb)).natAbs).set re (egcdY (s.reg ra) (s.reg rb)).natAbs)
        _ (flagUpdate_ofBezout rd ra rb rc re (egcdX (s.reg ra) (s.reg rb))
          (egcdY (s.reg ra) (s.reg rb))) fun u hu => by
            rw [exec, execEgcd, if_neg h, ← hu.x, hu.reg, hu.reg]; rfl
  | modinv rd ra rc =>
    by_cases h : s.reg rc = 0
    · exact .fails .invmod nofun fun u hu => if_pos (by rw [hu.reg, h])
    · cases hv : modInverse (s.reg ra) (s.reg rc) with
      | none => exact .fails .noinv nofun fun u hu => by simp [exec, execModinv, hu.reg, h, hv]
      | some v =>
        exact effect_setReg rd v rfl rfl rfl fun u hu => by simp [exec, execModinv, hu.reg, h, hv]
  | prime ra =>
    exact .succeeds s.x _ (flagUpdate_ofVerdict (isProbablePrime (s.reg ra)) rfl rfl rfl)
      fun u hu => by rw [← hu.x, ← hu.reg]; rfl
  | mrround ra rb =>
    by_cases h : s.reg rb < 2
    · exact .fails .range nofun fun u hu => if_pos (by rw [hu.reg]; exact h)
    · exact .succeeds s.x _ (flagUpdate_ofVerdict (roundVerdict (s.reg ra) (s.reg rb)) rfl rfl rfl)
        fun u hu => by
          rw [← hu.reg] at h
          rw [exec, execMrround, if_neg h, ← hu.x, hu.reg, hu.reg]; rfl

/-- A completion neither reads nor writes the port's response. -/
theorem complete_withResp (s : State) (r : Option Response) :
    ∃ t, complete s = .next t ∧ complete { s with resp := r } = .next { t with resp := r } := by
  unfold complete
  cases decode s.cmdr with
  | error e => exact ⟨_, rfl, rfl⟩
  | ok i =>
    obtain ⟨e, -, h⟩ | ⟨x, g, -, h⟩ := exec_effect i s
    · exact ⟨_, h s ⟨rfl, rfl⟩, h _ ⟨rfl, rfl⟩⟩
    · exact ⟨_, h s ⟨rfl, rfl⟩, h _ ⟨rfl, rfl⟩⟩

/-! ## What a transaction does to the flags, to ISTAT and with a plan -/

theorem State.writeLimb_withTurns (s : State) (r : Reg) (i : Nat) (v : Word) (l : List Turn) :
    { s with turns := l }.writeLimb r i v = { s.writeLimb r i v with turns := l } := by
  unfold State.writeLimb
  by_cases hi : i < s.cfg.limbs
  · rw [if_pos hi, if_pos hi]; rfl
  · rw [if_neg hi, if_neg hi]

/-- A read neither reads nor writes what is planned (20_memory.md R66). -/
theorem memRead_withTurns (a : Addr) (n : Size) (s : State) (l : List Turn) :
    memRead a n { s with turns := l } =
      ((memRead a n s).1, { (memRead a n s).2 with turns := l }) := by
  obtain ⟨cfg, x, flags, busy, _⟩ := s
  unfold memRead
  cases wellFormedAccess a n with
  | false => rfl
  | true =>
    cases target a with
    | window r i => cases busy <;> rfl
    | _ => rfl

/-- A write neither reads nor writes what is planned (20_memory.md R67). -/
theorem memWrite_withTurns (a : Addr) (n : Size) (v : Word) (s : State) (l : List Turn) :
    memWrite a n v { s with turns := l } =
      ((memWrite a n v s).1, { (memWrite a n v s).2 with turns := l }) := by
  unfold memWrite
  cases wellFormedAccess a n with
  | false => rfl
  | true =>
    cases target a with
    | ctrlReg => cases v.getLsbD 0 <;> rfl
    | cmdReg =>
      obtain ⟨cfg, x, flags, busy, _⟩ := s
      cases busy <;> rfl
    | window r i =>
      simp only [State.writeLimb_withTurns]
      obtain ⟨cfg, x, flags, busy, _⟩ := s
      cases busy <;> rfl
    | _ => rfl

theorem transact_withTurns (tr : Transaction) (s : State) (l : List Turn) :
    transact tr { s with turns := l } = { transact tr s with turns := l } := by
  cases tr with
  | read a n => simp only [transact, memRead_withTurns]
  | write a n v => simp only [transact, memWrite_withTurns]

/-- A soft reset is the reset of the block, answered OKAY (10_state.md R47). -/
theorem transact_softReset {tr : Transaction} (h : tr.isSoftReset = true) (s : State) :
    transact tr s = { s.blockReset with resp := some ⟨.okay, 0⟩ } := by
  cases tr with
  | read a n => cases h
  | write a n v =>
    simp only [Transaction.isSoftReset, Bool.and_eq_true, beq_iff_eq] at h
    obtain ⟨⟨hw, ht⟩, hv⟩ := h
    simp only [transact, memWrite, hw, ht, hv]
    rfl

/-- The write of a command word, as R42 and R43 have it. -/
theorem transact_cmdWrite (v : Word) (s : State) :
    transact (.write 0x010 .word v) s =
      { (if s.busy then s.hazard else s.accept v) with resp := some ⟨.okay, 0⟩ } := rfl

/-- The step of a planned transaction (10_state.md R49). -/
theorem step_transaction {s : State} {tr : Transaction} {rest : List Turn}
    (h : s.turns = .transaction tr :: rest) :
    step s = .next (transact tr { s with turns := rest }) := by
  rw [step, advance, h]; rfl

/-- Among the transactions only a soft reset changes the flags (10_state.md R27). -/
theorem transact_flags {tr : Transaction} (h : tr.isSoftReset = false) (s : State) :
    (transact tr s).flags = s.flags := by
  obtain ⟨s', a, e, -, (rfl | ⟨-, rfl, -⟩) | ⟨b, n, v, rfl, hw⟩⟩ := transact_eq tr s
  · rw [e]
  · rw [e]; rfl
  · rw [e]
    cases hw with
    | softReset h' => rw [h] at h'; cases h'
    | _ => rfl

/-- A pending bit outlives every transaction but a soft reset and a write to ISTAT (R37). -/
theorem transact_pending {tr : Transaction} (h : tr.isSoftReset = false) {s : State} {k : Nat}
    (hk : s.istat.getLsbD k = true) :
    (transact tr s).istat.getLsbD k = true ∨
    ∃ v, tr = .write 0x01C .word v ∧
      (transact tr s).istat = s.istat &&& ~~~(v.extractLsb' 0 3) := by
  obtain ⟨s', a, e, -, (rfl | ⟨-, rfl, -⟩) | ⟨b, n, v, rfl, hw⟩⟩ := transact_eq tr s
  · exact .inl (by rw [e]; exact hk)
  · exact .inl (by simp [e, hk])
  · rw [e]
    cases hw with
    | softReset h' => rw [h] at h'; cases h'
    | acknowledge hn ha => exact .inr ⟨v, by rw [hn, ha], rfl⟩
    | hazard => exact .inl (by simp [hk])
    | _ => exact .inl hk

/-- A pending bit that a write to ISTAT clears was written with 1 (10_state.md R37). -/
theorem getLsbD_of_acknowledged {p : BitVec 3} {v : Word} {k : Nat} (hk : p.getLsbD k = true)
    (h : (p &&& ~~~(v.extractLsb' 0 3)).getLsbD k = false) : v.getLsbD k = true := by
  have hlt : k < 3 := BitVec.lt_of_getLsbD hk
  simpa [hk, hlt] using h

/-- The window occupies the addresses from 0x2000 on (20_memory.md R64). -/
theorem target_of_window {a : Addr} (h : 0x2000 ≤ a.toNat) :
    target a = .window (windowReg a) (windowLimb a) := by
  rw [target, if_neg (by omega), if_neg (by omega)]

/-- A read of the window while BUSY is the hazard (70_reset_and_hazards.md R276). -/
theorem memRead_window_busy {s : State} {a : Addr} (hb : s.busy = true) (h4 : a.toNat % 4 = 0)
    (hw : 0x2000 ≤ a.toNat) : memRead a .word s = (⟨.okay, 0⟩, s.hazard) := by
  simp [memRead, wellFormedAccess, h4, target_of_window hw, hb]

/-- A write to the window or to CMD while BUSY is the hazard (70_reset_and_hazards.md R276). -/
theorem memWrite_busy {s : State} {a : Addr} (v : Word) (hb : s.busy = true) (h4 : a.toNat % 4 = 0)
    (hw : 0x2000 ≤ a.toNat ∨ a = 0x010) : memWrite a .word v s = (⟨.okay, 0⟩, s.hazard) := by
  obtain hw | rfl := hw
  · simp [memWrite, wellFormedAccess, h4, target_of_window hw, hb]
  · simp [memWrite, wellFormedAccess, hb]

/-! ## The pending bits a completion sets, and the pin -/

/-- Every completion sets DONE_IP, and with an error code ERR_IP (10_state.md R44). -/
theorem EndedWith.pending {e : ErrCode} {s t : State} (h : EndedWith e s t) :
    t.istat.getLsbD 0 = true ∧ (e ≠ .ok → t.istat.getLsbD 1 = true) := by
  rw [h.istat]
  refine ⟨?_, fun he => ?_⟩
  · cases e <;> simp [completionBits]
  · simp [completionBits_of_ne he]

/-- A completion clears no pending bit (10_state.md R37). -/
theorem EndedWith.keepsPending {e : ErrCode} {s t : State} (h : EndedWith e s t) {k : Nat}
    (hk : s.istat.getLsbD k = true) : t.istat.getLsbD k = true := by
  simp [h.istat, hk]

/-- The word at 0x014 as a number (20_memory.md R66). -/
theorem State.flagsWord_toNat (s : State) :
    s.flagsWord.toNat = s.flags.z.toNat + 2 * s.flags.c.toNat + 4 * s.flags.xneg.toNat
      + 8 * s.flags.yneg.toNat + 16 * s.flags.p.toNat := by
  unfold State.flagsWord
  generalize s.flags = f
  obtain ⟨z, c, xneg, yneg, p⟩ := f
  revert z c xneg yneg p
  decide

/-- The pin in terms of the bits (10_state.md R38). -/
theorem State.irq_iff (s : State) :
    s.irq = true ↔ ∃ k, k < 3 ∧ s.ien.getLsbD k = true ∧ s.istat.getLsbD k = true := by
  have hzero : s.ien &&& s.istat = 0 ↔ ∀ k, k < 3 → (s.ien &&& s.istat).getLsbD k = false :=
    ⟨fun h k _ => by rw [h]; exact BitVec.getLsbD_zero,
      fun h => BitVec.eq_of_getLsbD_eq fun k hk => (h k hk).trans BitVec.getLsbD_zero.symm⟩
  rw [State.irq, decide_eq_true_iff, ne_eq, hzero]
  simp

/-! ## Flags as outputs (R27) -/

/-- No command reads a flag (10_state.md R27). -/
theorem exec_withFlags (i : Instr) (s : State) (f : Flags) :
    ∃ t u, exec i s = .next t ∧ exec i { s with flags := f } = .next u ∧
      u = { t with flags := u.flags } := by
  obtain ⟨e, -, h⟩ | ⟨x, g, -, h⟩ := exec_effect i s
  · exact ⟨_, _, h s ⟨rfl, rfl⟩, h _ ⟨rfl, rfl⟩, rfl⟩
  · exact ⟨_, _, h s ⟨rfl, rfl⟩, h _ ⟨rfl, rfl⟩, rfl⟩

/-- Only a completion or a reset changes a flag (10_state.md R27). -/
theorem step_flags {s t : State} (ht : step s = .next t) (hne : t.flags ≠ s.flags) :
    s.completesNext ∨ (∃ rest, s.turns = .pinReset :: rest) ∨
    ∃ tr rest, s.turns = .transaction tr :: rest ∧ tr.isSoftReset = true := by
  obtain ⟨hc, -⟩ | ⟨-, -, h⟩ | ⟨rest, hr, -⟩ | ⟨tr, rest, hr, h⟩ := step_cases s
  · exact .inl hc
  · cases h.symm.trans ht
    exact absurd rfl hne
  · exact .inr (.inl ⟨rest, hr⟩)
  · cases h.symm.trans ht
    cases hs : tr.isSoftReset with
    | true => exact .inr (.inr ⟨tr, rest, hr, hs⟩)
    | false => exact absurd (transact_flags hs _) hne

/-! ## The clock edge (10_state.md R46) -/

/-- The engine's part of an edge: its turn, if the latency of the command in flight has elapsed. -/
def duePart (due : Bool) (s : State) : Host.Outcome State Fault Refusal :=
  if due then engineTurn s else .next s

theorem duePart_withResp (due : Bool) (s : State) (r : Option Response) :
    ∃ t, duePart due s = .next t ∧
      duePart due { s with resp := r } = .next { t with resp := r } := by
  cases due with
  | false => exact ⟨s, rfl, rfl⟩
  | true =>
    cases hb : s.busy with
    | false => exact ⟨s, by simp [duePart, engineTurn, hb], by simp [duePart, engineTurn, hb]⟩
    | true => simpa [duePart, engineTurn, hb] using complete_withResp s r

theorem duePart_next (due : Bool) (s : State) : ∃ t, duePart due s = .next t :=
  have ⟨t, h, _⟩ := duePart_withResp due s none
  ⟨t, h⟩

theorem duePart_idle {s : State} (due : Bool) (hb : s.busy = false) : duePart due s = .next s := by
  cases due <;> simp [duePart, engineTurn, hb]

/-- The planned form of the engine's part. -/
theorem run_due (due : Bool) (s : State) (l : List Turn) :
    Sys2Proof.core.run (if due then [Turn.completion] else []).length
      { s with turns := (if due then [Turn.completion] else []) ++ l } =
      duePart due { s with turns := l } := by
  cases due with
  | false => rfl
  | true =>
    obtain ⟨t, ht⟩ := duePart_next true { s with turns := l }
    exact (run_succ (s := { s with turns := .completion :: l }) 0 ht).trans ht.symm

section
variable {p : Pins}

theorem clockEdge_reset (hr : p.rstN = false) (elapsed : Bool) (s : State) :
    clockEdge p elapsed s = .next s.pinReset := by
  simp [clockEdge, hr]

theorem clockEdge_quiet (hr : p.rstN = true) (hq : p.req = false) (elapsed : Bool) (s : State) :
    clockEdge p elapsed s = duePart (elapsed && s.busy) { s with resp := none } := by
  simp only [clockEdge, hr, hq]
  cases elapsed && s.busy <;> rfl

theorem clockEdge_request (hr : p.rstN = true) (hq : p.req = true) (elapsed : Bool) (s : State) :
    clockEdge p elapsed s = duePart (elapsed && s.busy) (transact p.transaction s) := by
  simp only [clockEdge, hr, hq]
  cases elapsed && s.busy <;> rfl

theorem edgeTurns_quiet (hr : p.rstN = true) (hq : p.req = false) (elapsed : Bool) (s : State) :
    edgeTurns p elapsed s = if elapsed && s.busy then [.completion] else [] := by
  simp [edgeTurns, hr, hq]

theorem edgeTurns_request (hr : p.rstN = true) (hq : p.req = true) (elapsed : Bool) (s : State) :
    edgeTurns p elapsed s =
      .transaction p.transaction :: if elapsed && s.busy then [.completion] else [] := by
  simp [edgeTurns, hr, hq]

end

/-! ## The obligations -/

/-- Settles O15: the update of the flags that `exec_effect` gives is one of the command's row. -/
theorem flagsAreWrittenAsTabled : Obligations.FlagsAreWrittenAsTabled := by
  intro i s t ht
  obtain ⟨e, he, h⟩ | ⟨x, g, hg, h⟩ := exec_effect i s
  · obtain rfl : s.errorCompletion e = t := by
      simpa [h s ⟨rfl, rfl⟩] using ht
    exact ⟨fun _ => ⟨rfl, rfl⟩, fun _ => ⟨rfl, rfl⟩, fun _ => rfl,
      fun f => ⟨_, h _ ⟨rfl, rfl⟩, rfl, fun hk => absurd hk.2 he, fun hk => absurd hk.2 he,
        fun hk => absurd hk.2 he⟩⟩
  · obtain rfl : { s with x := x, flags := g s.flags }.succeed = t := by
      simpa [h s ⟨rfl, rfl⟩] using ht
    have row {b : Bool} (hk : b = false ∨ ErrCode.ok ≠ .ok) : b = false :=
      hk.resolve_right fun hn => hn rfl
    exact ⟨fun hk => hg.keepsZC (row hk) _, fun hk => hg.keepsSigns (row hk) _,
      fun hk => hg.keepsP (row hk) _,
      fun f => ⟨_, h _ ⟨rfl, rfl⟩, rfl, fun hk => hg.setsZC hk.1 _ _,
        fun hk => hg.setsSigns hk.1 _ _, fun hk => hg.setsP hk.1 _ _⟩⟩

/-- Settles O16, clause by clause from the lemmas on R27. -/
theorem flagsAreOutputsOnly : Obligations.FlagsAreOutputsOnly :=
  ⟨exec_withFlags, fun s => ⟨s.flagsWord, rfl, s.flagsWord_toNat⟩, fun _ _ => step_flags, rfl⟩

/-- Settles O23: both sides are the transaction, or the cleared response, and then `duePart`. -/
theorem clockEdgeIsTransactionThenCompletion :
    Obligations.ClockEdgeIsTransactionThenCompletion := by
  intro p elapsed s
  cases hr : p.rstN with
  | false =>
    exact ⟨s.pinReset, s.pinReset, clockEdge_reset hr elapsed s, by rw [edgeTurns, hr]; rfl, rfl,
      nofun⟩
  | true =>
    cases hq : p.req with
    | false =>
      obtain ⟨u, hu, hu'⟩ := duePart_withResp (elapsed && s.busy) s none
      refine ⟨_, u, (clockEdge_quiet hr hq elapsed s).trans hu', ?_, rfl, nofun⟩
      rw [edgeTurns_quiet hr hq]
      exact (run_due _ s s.turns).trans hu
    | true =>
      obtain ⟨t, ht⟩ := duePart_next (elapsed && s.busy) (transact p.transaction s)
      refine ⟨t, t, (clockEdge_request hr hq elapsed s).trans ht, ?_, rfl, fun _ _ hs => ?_⟩
      · rw [edgeTurns_request hr hq, List.length_cons, List.cons_append, run_succ _ rfl,
          transact_withTurns, run_due, ← transact_withTurns]
        exact ht
      · rw [transact_softReset hs, duePart_idle _ rfl] at ht
        cases ht
        exact ⟨(atReset_blockReset s).withResp _, rfl⟩

/-- Settles O57: completions and hazards set bits, and by `step_cases` no other step clears one. -/
theorem pendingBitsAreSticky : Obligations.PendingBitsAreSticky := by
  refine ⟨fun s t ht => ?_, fun s a v hb h4 => ⟨fun hw => ?_, fun hw => ?_⟩,
    fun s v => ⟨rfl, rfl⟩, fun s t k ht hk hk' => ?_⟩
  · obtain ⟨t', h, he, -⟩ := complete_next s
    cases h.symm.trans ht
    exact he.pending
  · simp [memRead_window_busy hb h4 hw, hazBit]
  · simp [memWrite_busy v hb h4 hw, hazBit]
  · have hkept : t.istat.getLsbD k ≠ true := by simp [hk']
    obtain ⟨-, h⟩ | ⟨-, -, h⟩ | ⟨rest, hr, -⟩ | ⟨tr, rest, hr, h⟩ := step_cases s
    · obtain ⟨t', h', he, -⟩ := complete_next { s with turns := s.turns.tail }
      cases (h.trans h').symm.trans ht
      exact absurd (he.keepsPending hk) hkept
    · cases h.symm.trans ht
      exact absurd hk hkept
    · exact .inr (.inl ⟨rest, hr⟩)
    · cases h.symm.trans ht
      cases hs : tr.isSoftReset with
      | true => exact .inr (.inr ⟨tr, rest, hr, hs⟩)
      | false =>
        obtain hp | ⟨v, rfl, hv⟩ := transact_pending (s := { s with turns := rest }) hs hk
        · exact absurd hp hkept
        · exact .inl ⟨v, rest, hr, getLsbD_of_acknowledged hk (hv ▸ hk'), hv⟩

/-- Settles O1: both steps answer the reset of the block and differ in the port's response. -/
theorem resetLeavesTheStatedValues : Obligations.ResetLeavesTheStatedValues := by
  refine ⟨atReset_blockReset State.reset, fun s v hv => ?_⟩
  have hs : (Transaction.write 0x008 .word v).isSoftReset = true := hv
  exact ⟨s.pinReset, { s.blockReset with resp := some ⟨.okay, 0⟩ }, rfl, atReset_pinReset s, rfl,
    rfl, rfl, congrArg Host.Outcome.next (transact_softReset hs s),
    (atReset_blockReset s).withResp _, rfl⟩

/-- Settles O12: the CMD write of `transact_cmdWrite`, accepted since the block is idle. -/
theorem acceptanceStartsTheCommand : Obligations.AcceptanceStartsTheCommand := by
  intro s v rest hb hr
  rw [step_transaction hr, transact_cmdWrite, if_neg (by simp [hb])]
  exact ⟨_, rfl, rfl, rfl, rfl, rfl, fun _ => rfl, rfl, rfl, rfl, rfl, rfl, rfl⟩

/-- Settles O13: the same write while BUSY is the hazard. -/
theorem cmdWriteWhileBusyIsDropped : Obligations.CmdWriteWhileBusyIsDropped := by
  intro s v rest hb hr
  rw [step_transaction hr, transact_cmdWrite, if_pos hb]
  rfl

/-- Settles O58: `portOut` passes the level on whether or not there is a response. -/
theorem irqIsAnEnabledPendingBit : Obligations.IrqIsAnEnabledPendingBit := by
  refine fun s => ⟨?_, s.irq_iff⟩
  unfold State.portOut
  cases s.resp <;> rfl

end Sys2Proof.Machine
end

section
/-! PROOFS. The memory family (20_memory.md): the tables of reads and writes, the bus error. -/

namespace Sys2Proof.Machine

/-! ## Which transactions are refused (R70) -/

theorem wellFormedAccess_iff {a : Addr} {n : Size} :
    wellFormedAccess a n = true ↔ n = .word ∧ a.toNat % 4 = 0 := by
  simp [wellFormedAccess]

/-- The control registers end below 0x20 and the window begins at 0x2000 (20_memory.md R64). -/
theorem target_eq_unmapped_iff {a : Addr} :
    target a = .unmapped ↔ 0x20 ≤ a.toNat ∧ a.toNat < 0x2000 := by
  unfold target
  split
  next hc => -- below 0x20 every row of the map is a control register
    refine ⟨fun h => ?_, fun h => absurd hc (by omega)⟩
    split at h
    all_goals exact nomatch h
  next hc =>
    split
    next hu => exact ⟨fun _ => ⟨by omega, hu⟩, fun _ => rfl⟩
    next hu => exact ⟨nofun, fun h => absurd h.2 hu⟩

section
variable {a : Addr} {n : Size}

theorem memRead_refused (h : wellFormedAccess a n = false ∨ target a = .unmapped) (s : State) :
    memRead a n s = (busError, s) := by
  unfold memRead
  obtain h | h := h
  · simp [h]
  · simp [h]

theorem memWrite_refused (h : wellFormedAccess a n = false ∨ target a = .unmapped) (v : Word)
    (s : State) : memWrite a n v s = (busError, s) := by
  unfold memWrite
  obtain h | h := h
  · simp [h]
  · simp [h]

theorem memRead_resp_okay (hw : wellFormedAccess a n = true) (ht : target a ≠ .unmapped)
    (s : State) : (memRead a n s).1.resp = .okay := by
  unfold memRead
  rw [hw]
  cases h : target a with
  | unmapped => exact absurd h ht
  | window r i => cases s.busy <;> rfl
  | _ => rfl

theorem memWrite_resp_okay (hw : wellFormedAccess a n = true) (ht : target a ≠ .unmapped)
    (v : Word) (s : State) : (memWrite a n v s).1.resp = .okay := by
  unfold memWrite
  rw [hw]
  cases h : target a with
  | unmapped => exact absurd h ht
  | _ => rfl

end

/-! ## The control registers as numbers (R66) -/

/-- The word at 0x00C as a number (20_memory.md R66). -/
theorem State.statusWord_toNat (s : State) :
    s.statusWord.toNat = s.busy.toNat + 2 * s.done.toNat + 16 * s.errc.bits.toNat := by
  unfold State.statusWord
  generalize s.busy = busy
  generalize s.done = done
  generalize s.errc.bits = e
  revert busy done e
  decide

/-- IEN and ISTAT read with zeros above their three bits (20_memory.md R66). -/
theorem toNat_zeroExtended (b : BitVec 3) : (0#29 ++ b : Word).toNat = b.toNat := by
  rw [BitVec.toNat_append]; simp

/-! ## The window, limb position by limb position (R66 to R69) -/

section
variable (r : Reg) {i : Nat} (hi : i < 128) {s : State}
include hi

theorem windowAddr_toNat : (windowAddr r i).toNat = 0x2000 + 0x200 * r.val + 4 * i :=
  (target_window r hi).2

theorem target_windowAddr : target (windowAddr r i) = .window r i := (target_window r hi).1

theorem windowAddr_aligned : (windowAddr r i).toNat % 4 = 0 := by
  rw [windowAddr_toNat r hi]; omega

theorem windowAddr_inWindow : 0x2000 ≤ (windowAddr r i).toNat := by
  rw [windowAddr_toNat r hi]; omega

theorem memRead_windowAddr_idle (hb : s.busy = false) :
    memRead (windowAddr r i) .word s = (⟨.okay, s.readLimb r i⟩, s) := by
  simp [memRead, wellFormedAccess_iff.mpr ⟨rfl, windowAddr_aligned r hi⟩, target_windowAddr r hi, hb]

theorem memWrite_windowAddr_idle (v : Word) (hb : s.busy = false) :
    memWrite (windowAddr r i) .word v s = (⟨.okay, 0⟩, s.writeLimb r i v) := by
  simp [memWrite, wellFormedAccess_iff.mpr ⟨rfl, windowAddr_aligned r hi⟩, target_windowAddr r hi,
    hb]

theorem memRead_windowAddr_busy (hb : s.busy = true) :
    memRead (windowAddr r i) .word s = (⟨.okay, 0⟩, s.hazard) :=
  memRead_window_busy hb (windowAddr_aligned r hi) (windowAddr_inWindow r hi)

theorem memWrite_windowAddr_busy (v : Word) (hb : s.busy = true) :
    memWrite (windowAddr r i) .word v s = (⟨.okay, 0⟩, s.hazard) :=
  memWrite_busy v hb (windowAddr_aligned r hi) (.inl (windowAddr_inWindow r hi))

end

section
variable {s : State} {i : Nat}

theorem State.readLimb_of_lt (r : Reg) (hi : i < s.cfg.limbs) :
    s.readLimb r i = limb (s.reg r) i := if_pos hi

theorem State.readLimb_of_ge (r : Reg) (hi : s.cfg.limbs ≤ i) : s.readLimb r i = 0 :=
  if_neg hi.not_gt

theorem State.writeLimb_of_lt (r : Reg) (v : Word) (hi : i < s.cfg.limbs) :
    s.writeLimb r i v = s.setReg r (setLimb (s.reg r) i v) := if_pos hi

theorem State.writeLimb_of_ge (r : Reg) (v : Word) (hi : s.cfg.limbs ≤ i) :
    s.writeLimb r i v = s := if_neg hi.not_gt

end

/-! ## The two control registers whose write has a condition (R67) -/

theorem memWrite_ctrl (v : Word) (s : State) :
    memWrite 0x008 .word v s = (⟨.okay, 0⟩, if v.getLsbD 0 then s.blockReset else s) := rfl

theorem memWrite_cmd (v : Word) (s : State) :
    memWrite 0x010 .word v s = (⟨.okay, 0⟩, if s.busy then s.hazard else s.accept v) := rfl

/-! ## The obligations -/

/-- Settles O51: the control registers answer by the definition of the map, the window by the
lemmas on `windowAddr`. -/
theorem readsAnswerAsTabled : Obligations.ReadsAnswerAsTabled := by
  refine fun s => ⟨rfl, rfl, rfl, ⟨s.statusWord, rfl, s.statusWord_toNat⟩, rfl,
    ⟨s.flagsWord, rfl, s.flagsWord_toNat⟩, ⟨_, rfl, toNat_zeroExtended s.ien⟩,
    ⟨_, rfl, toNat_zeroExtended s.istat⟩, fun r i hi => ⟨fun hb hl => ?_, fun hb hl => ?_,
      memRead_windowAddr_busy r hi⟩⟩
  · have h := memRead_windowAddr_idle r hi hb
    rwa [State.readLimb_of_lt r hl] at h
  · have h := memRead_windowAddr_idle r hi hb
    rwa [State.readLimb_of_ge r hl] at h

/-- Settles O52: as O51; the value that a limb write puts into its register is `setLimb`, of which
`limb_setLimb` gives every limb. -/
theorem writesActAsTabled : Obligations.WritesActAsTabled := by
  refine fun s v => ⟨fun a ha => ?_, fun hv => ?_, fun hv => ⟨s.blockReset, ?_,
    atReset_blockReset s⟩, fun hb => ?_, fun hb => ?_, rfl, rfl, fun r i hi =>
      ⟨fun hb hl => ⟨setLimb (s.reg r) i v, ?_, fun j => limb_setLimb _ i j v⟩, fun hb hl => ?_,
        memWrite_windowAddr_busy r hi v⟩⟩
  · -- the four read-only registers
    simp only [List.mem_cons, List.not_mem_nil, or_false] at ha
    obtain rfl | rfl | rfl | rfl := ha <;> rfl
  · rw [memWrite_ctrl, hv]; rfl
  · rw [memWrite_ctrl, hv]; rfl
  · rw [memWrite_cmd, if_neg (by simp [hb])]; rfl
  · exact memWrite_busy v hb rfl (.inr rfl)
  · have h := memWrite_windowAddr_idle r hi v hb
    rwa [State.writeLimb_of_lt r v hl] at h
  · have h := memWrite_windowAddr_idle r hi v hb
    rwa [State.writeLimb_of_ge r v hl] at h

/-- Settles O55: the stated addresses and sizes are those that `wellFormedAccess` refuses or that
`target` leaves unmapped. -/
theorem busErrorHasNoEffect : Obligations.BusErrorHasNoEffect := by
  intro s a n v
  have hbad : (n ≠ .word ∨ a.toNat % 4 ≠ 0 ∨ (0x20 ≤ a.toNat ∧ a.toNat < 0x2000)) ↔
      (wellFormedAccess a n = false ∨ target a = .unmapped) := by
    rw [target_eq_unmapped_iff, ← Bool.not_eq_true, wellFormedAccess_iff, not_and_or, or_assoc]
  rw [hbad]
  refine ⟨fun h => ⟨memRead_refused h s, memWrite_refused h v s⟩, fun h => ?_⟩
  obtain ⟨hw, ht⟩ := not_or.mp h
  rw [Bool.not_eq_false] at hw
  exact ⟨memRead_resp_okay hw ht s, memWrite_resp_okay hw ht v s⟩

end Sys2Proof.Machine
end

section
/-! PROOFS. The encoding family (30_encoding.md): rows, masks and the decoder, illegal words. -/

namespace Sys2Proof

/-! ## Fields bit by bit -/

theorem testBit_slice (w : Word) (hi lo j : Nat) :
    (slice w hi lo).testBit j = (decide (j < hi + 1 - lo) && w.getLsbD (lo + j)) := by
  rw [slice, Nat.testBit_mod_two_pow, Nat.testBit_div_two_pow, BitVec.testBit_toNat, Nat.add_comm j]

theorem slice_eq_zero_iff {w : Word} {hi lo : Nat} :
    slice w hi lo = 0 ↔ ∀ k, lo ≤ k → k ≤ hi → w.getLsbD k = false := by
  constructor
  · intro h k hlo hhi
    have hbit := testBit_slice w hi lo (k - lo)
    rw [h, Nat.zero_testBit, Nat.add_sub_cancel' hlo] at hbit
    simpa [show k - lo < hi + 1 - lo by omega] using hbit.symm
  · intro h
    refine Nat.zero_of_testBit_eq_false fun j => ?_
    rw [testBit_slice, Bool.and_eq_false_imp, decide_eq_true_iff]
    exact fun hj => h _ (by omega) (by omega)

theorem Command.opcode_lt (c : Command) : c.opcode < 2 ^ 8 := by cases c <;> decide

theorem slice_opcode_iff {w : Word} {c : Command} :
    slice w 31 24 = c.opcode ↔ ∀ k, 24 ≤ k → k < 32 → w.getLsbD k = c.opcode.testBit (k - 24) := by
  constructor
  · intro h k hlo hhi
    rw [← h, testBit_slice, Nat.add_sub_cancel' hlo, decide_eq_true (by omega), Bool.true_and]
  · intro h
    refine Nat.eq_of_testBit_eq fun j => ?_
    rw [testBit_slice]
    by_cases hj : j < 8
    · rw [decide_eq_true hj, Bool.true_and, h _ (by omega) (by omega), Nat.add_sub_cancel_left]
    · rw [decide_eq_false hj, Bool.false_and, Nat.testBit_lt_two_pow]
      exact c.opcode_lt.trans_le (Nat.pow_le_pow_right (by decide) (by omega))

/-! ## The must-be-zero fields of a row (R95) -/

/-- The bit ranges below the opcode that a row does not use, as (highest, lowest): the fields that
`Command.read` wants to be zero. -/
def Command.zeroFields : Command → List (Nat × Nat)
  | .nop => [(23, 0)]
  | .ldi => []
  | .mov => [(15, 0)]
  | .add => [(11, 0)]
  | .sub => [(11, 0)]
  | .cmp => [(23, 20), (11, 0)]
  | .modmul => [(7, 0)]
  | .modexp => [(7, 0)]
  | .egcd => [(3, 0)]
  | .modinv => [(15, 12), (7, 0)]
  | .prime => [(23, 20), (15, 0)]
  | .mrround => [(23, 20), (11, 0)]

theorem Command.zeroFields_lt {c : Command} {f : Nat × Nat} (hf : f ∈ c.zeroFields) :
    f.1 < 24 := by
  revert f
  cases c <;> decide

theorem exists_ifZero_iff {z : Nat} {j : Instr} : (∃ i, ifZero z j = .ok i) ↔ z = 0 :=
  ⟨fun ⟨_, h⟩ => (ifZero_ok h).1, fun h => ⟨j, ifZero_zero h j⟩⟩

/-- A row reads a word whose must-be-zero fields are zero, and no other. -/
theorem Command.exists_read_iff {c : Command} {w : Word} :
    (∃ i, c.read w = .ok i) ↔ ∀ f ∈ c.zeroFields, slice w f.1 f.2 = 0 := by
  cases c <;> simp [Command.read, Command.zeroFields, exists_ifZero_iff]

/-- A row answers its own command. -/
theorem Command.command_of_read {c : Command} {w : Word} {i : Instr} (h : c.read w = .ok i) :
    i.command = c := by
  cases c with
  | ldi => cases h; rfl
  | _ => obtain ⟨-, rfl⟩ := ifZero_ok h; rfl

/-! ## Mask and match bit by bit (R96) -/

theorem Command.mask_getLsbD_iff (c : Command) {k : Nat} (hk : k < 32) :
    c.mask.getLsbD k = true ↔ 24 ≤ k ∨ ∃ f ∈ c.zeroFields, f.2 ≤ k ∧ k ≤ f.1 := by
  revert k
  cases c <;> decide

theorem Command.pattern_getLsbD (c : Command) {k : Nat} (hk : k < 32) :
    c.pattern.getLsbD k = (decide (24 ≤ k) && c.opcode.testBit (k - 24)) := by
  revert k
  cases c <;> decide

/-- The bits that a row compares: those of the opcode with its own opcode, those of its
must-be-zero fields with 0. -/
theorem Command.selects_iff_bits {c : Command} {w : Word} :
    c.selects w ↔
      (∀ k, 24 ≤ k → k < 32 → w.getLsbD k = c.opcode.testBit (k - 24)) ∧
      ∀ f ∈ c.zeroFields, ∀ k, f.2 ≤ k → k ≤ f.1 → w.getLsbD k = false := by
  constructor
  · intro h
    have hbit {k : Nat} (hk : k < 32) (hm : c.mask.getLsbD k = true) :
        w.getLsbD k = (decide (24 ≤ k) && c.opcode.testBit (k - 24)) := by
      rw [← c.pattern_getLsbD hk, ← h, BitVec.getLsbD_and, hm, Bool.and_true]
    refine ⟨fun k h24 hk => ?_, fun f hf k hlo hhi => ?_⟩
    · rw [hbit hk ((c.mask_getLsbD_iff hk).mpr (.inl h24)), decide_eq_true h24, Bool.true_and]
    · have h24 : k < 24 := hhi.trans_lt (zeroFields_lt hf)
      have hk : k < 32 := h24.trans (by decide)
      rw [hbit hk ((c.mask_getLsbD_iff hk).mpr (.inr ⟨f, hf, hlo, hhi⟩)),
        decide_eq_false h24.not_ge, Bool.false_and]
  · rintro ⟨hop, hzero⟩
    refine BitVec.eq_of_getLsbD_eq fun k hk => ?_
    rw [BitVec.getLsbD_and, c.pattern_getLsbD hk]
    by_cases h24 : 24 ≤ k
    · rw [hop k h24 hk, (c.mask_getLsbD_iff hk).mpr (.inl h24), decide_eq_true h24, Bool.and_comm]
    · rw [decide_eq_false h24, Bool.false_and, Bool.and_eq_false_imp, ← Bool.not_eq_true]
      intro hw hm
      obtain ⟨f, hf, hlo, hhi⟩ := ((c.mask_getLsbD_iff hk).mp hm).resolve_left h24
      rw [hzero f hf k hlo hhi] at hw
      cases hw

theorem Command.selects_iff {c : Command} {w : Word} :
    c.selects w ↔ slice w 31 24 = c.opcode ∧ ∃ i, c.read w = .ok i := by
  simp only [selects_iff_bits, slice_opcode_iff, exists_read_iff, slice_eq_zero_iff]

/-! ## The decoder and the rows -/

/-- R95: the decoder answers a command of the row exactly when the word selects the row. -/
theorem Command.selects_iff_decode {c : Command} {w : Word} :
    c.selects w ↔ ∃ i, decode w = .ok i ∧ i.command = c := by
  rw [selects_iff]
  constructor
  · rintro ⟨hop, i, hi⟩
    exact ⟨i, (decode_of_opcode c hop).trans hi, command_of_read hi⟩
  · rintro ⟨i, hi, rfl⟩
    obtain ⟨c, hop, hread⟩ := decode_ok hi
    rw [command_of_read hread]
    exact ⟨hop, i, hread⟩

/-- R98: a word that matches no row is refused. -/
theorem decode_error_of_selects_none {w : Word} (h : ∀ c : Command, ¬c.selects w) :
    ∃ e, decode w = .error e := by
  cases hd : decode w with
  | error e => exact ⟨e, rfl⟩
  | ok i => exact absurd (Command.selects_iff_decode.mpr ⟨i, hd, rfl⟩) (h i.command)

end Sys2Proof

namespace Sys2Proof.Machine

/-- Below the opcode the used fields of a row are the bits outside its must-be-zero fields. -/
theorem zeroFields_iff_unused (c : Command) {k : Nat} (hk : k < 24) :
    (∃ f ∈ c.zeroFields, f.2 ≤ k ∧ k ≤ f.1) ↔ ∀ f ∈ usedFieldsOf c, ¬(f.2 ≤ k ∧ k ≤ f.1) := by
  revert k
  cases c <;> decide

/-! ## An illegal word in flight (R98, 60_exceptions.md R243) -/

theorem complete_of_decode_error {s : State} {e : Illegal} (h : decode s.cmdr = .error e) :
    complete s = .next (s.errorCompletion .illegal) := by
  rw [complete, h]

/-- The step of a planned completion while BUSY (10_state.md R49). -/
theorem step_completion {s : State} {rest : List Turn} (hb : s.busy = true)
    (hr : s.turns = .completion :: rest) : step s = complete { s with turns := rest } := by
  rw [step, advance, hr]
  exact if_pos hb

/-! ## The obligations -/

/-- Settles O5: the mask has the bits of the must-be-zero fields, and on those fields and the opcode
the row and the decoder judge alike (`Command.selects_iff_decode`). -/
theorem decoderFollowsMaskAndMatch : Obligations.DecoderFollowsMaskAndMatch := by
  refine ⟨fun c k hk => ?_, fun w c => Command.selects_iff_decode,
    fun w h => decode_error_of_selects_none h⟩
  rw [c.mask_getLsbD_iff hk]
  by_cases h24 : 24 ≤ k
  · exact iff_of_true (.inl h24) (.inl h24)
  · rw [zeroFields_iff_unused c (by omega)]

/-- Settles O10: a word that selects no row is accepted by `transact_cmdWrite`, and its completion is
the error completion, since the decoder refuses it. -/
theorem illegalWordIsAcceptedAndFails : Obligations.IllegalWordIsAcceptedAndFails := by
  intro w
  by_cases hsel : ∃ c : Command, c.selects w
  · obtain ⟨c, hc⟩ := hsel
    obtain ⟨i, hi, rfl⟩ := Command.selects_iff_decode.mp hc
    exact .inl ⟨i, hi, hc⟩
  · have hnone : ∀ c : Command, ¬c.selects w := not_exists.mp hsel
    obtain ⟨e, he⟩ := decode_error_of_selects_none hnone
    refine .inr ⟨hnone, fun s rest hb hr => ?_⟩
    rw [step_transaction hr, transact_cmdWrite, if_neg (by simp [hb])]
    exact ⟨_, _, rfl, rfl, rfl, rfl, (step_completion rfl rfl).trans (complete_of_decode_error he),
      endedWith_errorCompletion _ nofun, fun _ => rfl, rfl⟩

/-- Settles O8: the decoder evaluated on the five words of R104. -/
theorem encodingExamplesDecode : Obligations.EncodingExamplesDecode := by
  unfold Obligations.EncodingExamplesDecode
  decide

end Sys2Proof.Machine
end

section
/-! PROOFS. The load, move, add, subtract and compare family (40_bigint_add_sub_cmp.md): the word of
every command, the reduction to W bits, and the completions of LDI, MOV, ADD, SUB and CMP. -/

namespace Sys2Proof

/-! ## The word of a command, both ways (30_encoding.md R95, R101) -/

theorem ifZero_eq_ok_iff {z : Nat} {i j : Instr} : ifZero z i = .ok j ↔ z = 0 ∧ i = j := by
  refine ⟨ifZero_ok, ?_⟩
  rintro ⟨hz, rfl⟩
  exact ifZero_zero hz i

theorem decode_eq_ok_iff_read {w : Word} {i : Instr} :
    decode w = .ok i ↔ slice w 31 24 = i.command.opcode ∧ i.command.read w = .ok i := by
  constructor
  · intro h
    obtain ⟨c, hop, hread⟩ := decode_ok h
    obtain rfl := Command.command_of_read hread
    exact ⟨hop, hread⟩
  · rintro ⟨hop, hread⟩
    exact (decode_of_opcode _ hop).trans hread

/-- The fields that are longer than a register number, as numbers made of such fields. -/
theorem slice_eq_fields (w : Word) :
    slice w 7 0 = (regAt w 4).val * 2 ^ 4 + slice w 3 0 ∧
    slice w 11 0 = (regAt w 8).val * 2 ^ 8 + slice w 7 0 ∧
    slice w 15 0 = (regAt w 12).val * 2 ^ 12 + slice w 11 0 ∧
    slice w 19 0 = (regAt w 16).val * 2 ^ 16 + slice w 15 0 ∧
    slice w 23 0 = (regAt w 20).val * 2 ^ 20 + slice w 19 0 ∧
    w.toNat = slice w 31 24 * 2 ^ 24 + slice w 23 0 := by
  simp only [regAt_val, slice]
  omega

/-- The fields of a word fix it, and of a row's word each field is an operand, the row's opcode or
zero. -/
theorem decode_eq_ok_iff {w : Word} {i : Instr} : decode w = .ok i ↔ w = encode i := by
  obtain ⟨h7, h11, h15, h19, h23, hw⟩ := slice_eq_fields w
  have hop : slice w 31 24 < 256 := Nat.mod_lt _ (by decide)
  have hlow : slice w 3 0 < 16 := Nat.mod_lt _ (by decide)
  have hr20 : slice w 23 20 = (regAt w 20).val := rfl
  have hr12 : slice w 15 12 = (regAt w 12).val := rfl
  rw [decode_eq_ok_iff_read]
  cases i
  all_goals
    simp (disch := omega) only [Instr.command, Command.opcode, Command.read, ifZero_eq_ok_iff,
      Except.ok.injEq, Instr.ldi.injEq, Instr.mov.injEq, Instr.add.injEq, Instr.sub.injEq,
      Instr.cmp.injEq, Instr.modmul.injEq, Instr.modexp.injEq, Instr.egcd.injEq,
      Instr.modinv.injEq, Instr.prime.injEq, Instr.mrround.injEq, encode, BitVec.ofNat_eq_ofNat,
      ← BitVec.toNat_inj, BitVec.toNat_ofNat, Nat.mod_eq_of_lt, Fin.ext_iff, and_true]
    omega

end Sys2Proof

namespace Sys2Proof.Machine

theorem encodedAs_of_encode {i : Instr} {n : Nat} (h : encode i = BitVec.ofNat 32 n) :
    EncodedAs i n := fun _ => h ▸ decode_eq_ok_iff

/-! ## An exact integer reduced to W bits (R120) -/

theorem State.wrap_natCast (s : State) (n : Nat) : s.wrap n = n % 2 ^ s.width := by
  rw [State.wrap, ← Int.natCast_emod, Int.toNat_natCast]

theorem State.coe_wrap (s : State) (v : Int) : (s.wrap v : Int) = v % 2 ^ s.width := by
  rw [State.wrap, Int.toNat_of_nonneg (Int.emod_nonneg v (by simp)), Nat.cast_pow, Nat.cast_ofNat]

theorem State.wrap_lt (s : State) (v : Int) : s.wrap v < 2 ^ s.width := by
  zify
  rw [State.coe_wrap]
  exact Int.emod_lt_of_pos v (by positivity)

/-- A value in the k-th range of length 2^W is its reduction and k times 2^W. -/
theorem State.eq_wrap_add_mul {s : State} {v k : Int} (hlo : 2 ^ s.width * k ≤ v)
    (hhi : v < 2 ^ s.width * (k + 1)) : v = s.wrap v + 2 ^ s.width * k := by
  have hpos : (0 : Int) < 2 ^ s.width := by positivity
  have hdiv : v / 2 ^ s.width = k :=
    ((Int.ediv_emod_unique (r := v - 2 ^ s.width * k) hpos).mpr
      ⟨Int.sub_add_cancel _ _, by linarith, by linarith⟩).1
  rw [State.coe_wrap, ← hdiv, Int.emod_add_mul_ediv]

/-! ## The flags Z and C (R125 to R127) -/

section
variable {f : Flags} {width a b : Nat}

theorem Flags.ofAdd_c_iff : (f.ofAdd width a b).c = true ↔ 2 ^ width ≤ a + b := decide_eq_true_iff

theorem Flags.ofAdd_z_iff : (f.ofAdd width a b).z = true ↔ (a + b) % 2 ^ width = 0 := beq_iff_eq

theorem Flags.ofSub_c_iff : (f.ofSub a b).c = true ↔ a < b := decide_eq_true_iff

theorem Flags.ofSub_z_iff : (f.ofSub a b).z = true ↔ (a : Int) - b = 0 := beq_iff_eq

theorem Flags.ofCmp_c_iff : (f.ofCmp a b).c = true ↔ a < b := decide_eq_true_iff

theorem Flags.ofCmp_z_iff : (f.ofCmp a b).z = true ↔ a = b := beq_iff_eq

theorem Flags.ofSub_eq_ofCmp (f : Flags) (a b : Nat) : f.ofSub a b = f.ofCmp a b := by
  have hz : ((a : Int) - b == 0) = (a == b) := by
    rw [Bool.eq_iff_iff, beq_iff_eq, beq_iff_eq]
    omega
  rw [Flags.ofSub, Flags.ofCmp, hz]

end

/-! ## C records whether the exact result was reduced (R120) -/

section
variable {s : State} {a b : Nat} (f : Flags) (ha : a < 2 ^ s.width) (hb : b < 2 ^ s.width)
include ha hb

theorem add_eq_wrap_add_carry :
    a + b = s.wrap (a + b) + 2 ^ s.width * (f.ofAdd s.width a b).c.toNat := by
  by_cases h : 2 ^ s.width ≤ a + b
  · rw [Flags.ofAdd_c_iff.mpr h]
    zify at ha hb h ⊢
    exact State.eq_wrap_add_mul (k := 1) (by omega) (by omega)
  · rw [Bool.eq_false_iff.mpr (mt Flags.ofAdd_c_iff.mp h)]
    zify at h ⊢
    exact State.eq_wrap_add_mul (k := 0) (by omega) (by omega)

theorem sub_eq_wrap_sub_borrow :
    (a : Int) - b = s.wrap (a - b) - 2 ^ s.width * (f.ofSub a b).c.toNat := by
  zify at ha hb
  rw [sub_eq_add_neg (s.wrap _ : Int), ← mul_neg]
  by_cases h : a < b
  · rw [Flags.ofSub_c_iff.mpr h]
    exact State.eq_wrap_add_mul (k := -1) (by omega) (by omega)
  · rw [Bool.eq_false_iff.mpr (mt Flags.ofSub_c_iff.mp h)]
    exact State.eq_wrap_add_mul (k := 0) (by omega) (by omega)

end

/-! ## One register and the flags written, followed by success -/

theorem completion_setReg_setFlags (s : State) (rd : Reg) (v : Nat) (f : Flags) :
    EndedWith .ok s ((s.setReg rd v).setFlags f).succeed ∧
    ((s.setReg rd v).setFlags f).succeed.reg rd = v ∧
    SameRegsBut [rd] s ((s.setReg rd v).setFlags f).succeed :=
  ⟨endedWith_succeed ⟨rfl, rfl, rfl, rfl, rfl⟩ rfl, s.reg_setReg_self rd v,
    sameRegsBut_setReg s rd v (List.mem_singleton_self rd)⟩

/-! ## The obligations -/

/-- Settles O27: the reduction of a sum of naturals is the remainder, and the flags are `ofAdd`. -/
theorem addWritesWrappedSumAndCarry : Obligations.AddWritesWrappedSumAndCarry := by
  intro rd ra rb s
  obtain ⟨hend, hreg, hframe⟩ := completion_setReg_setFlags s rd (s.wrap (s.reg ra + s.reg rb))
    (s.flags.ofAdd s.width (s.reg ra) (s.reg rb))
  refine ⟨encodedAs_of_encode rfl, _, rfl, hend, ?_, hframe, Flags.ofAdd_c_iff, Flags.ofAdd_z_iff,
    rfl, rfl, rfl⟩
  rw [hreg, ← Nat.cast_add, State.wrap_natCast]

/-- Settles O28: the reduction of an integer is its remainder, and the flags are `ofSub`. -/
theorem subWritesWrappedDifferenceAndBorrow : Obligations.SubWritesWrappedDifferenceAndBorrow := by
  intro rd ra rb s
  obtain ⟨hend, hreg, hframe⟩ := completion_setReg_setFlags s rd (s.wrap (s.reg ra - s.reg rb))
    (s.flags.ofSub (s.reg ra) (s.reg rb))
  refine ⟨encodedAs_of_encode rfl, _, rfl, hend, ?_, hframe, Flags.ofSub_c_iff, Flags.ofSub_z_iff,
    rfl, rfl, rfl⟩
  rw [hreg, State.coe_wrap]

/-- Settles O29: equal and below exclude each other, and `ofSub` is `ofCmp`. -/
theorem cmpSetsOrderFlags : Obligations.CmpSetsOrderFlags := by
  intro ra rb s
  refine ⟨encodedAs_of_encode rfl, _, rfl, endedWith_succeed ⟨rfl, rfl, rfl, rfl, rfl⟩ rfl,
    fun _ => rfl, Flags.ofCmp_z_iff, Flags.ofCmp_c_iff, ?_, rfl, rfl, rfl, fun rd u hu => ?_⟩
  · rintro ⟨hz, hc⟩
    exact (Flags.ofCmp_c_iff.mp hc).ne (Flags.ofCmp_z_iff.mp hz)
  · cases hu
    exact s.flags.ofSub_eq_ofCmp _ _

/-- Settles O30: the bounds are those of the operands, the two equations those of `eq_wrap_add_mul`
with C for the number of times 2^W was taken off or added. -/
theorem exactResultIsRecoverable : Obligations.ExactResultIsRecoverable := by
  intro rd ra rb s t u hinv ht hu
  cases ht
  cases hu
  simp only [State.reg_succeed, State.reg_setFlags, State.reg_setReg_self]
  have ha := hinv.inRange ra
  have hb := hinv.inRange rb
  have hlo : -(2 ^ s.width - 1 : Int) ≤ (s.reg ra : Int) - s.reg rb := by zify at hb; omega
  have hhi : (s.reg ra : Int) - s.reg rb ≤ 2 ^ s.width - 1 := by zify at ha; omega
  exact ⟨by rw [pow_succ]; omega, hlo, hhi, add_eq_wrap_add_carry s.flags ha hb,
    sub_eq_wrap_sub_borrow s.flags ha hb, s.wrap_lt _, s.wrap_lt _⟩

/-- Settles O25: every word with LDI's opcode is legal, since the row has no must-be-zero field. -/
theorem ldiLoadsTheImmediate : Obligations.LdiLoadsTheImmediate := by
  intro rd imm s
  obtain ⟨hend, hreg, hframe⟩ := completion_setReg_setFlags s rd (immValue imm) s.flags
  exact ⟨encodedAs_of_encode rfl, fun w hw => ⟨_, decode_of_opcode .ldi hw⟩, _, rfl, hend, hreg,
    hframe, rfl⟩

/-- Settles O26: the register write of ADD with the flags as they were. -/
theorem movCopiesTheRegister : Obligations.MovCopiesTheRegister := by
  intro rd ra s
  obtain ⟨hend, hreg, hframe⟩ := completion_setReg_setFlags s rd (s.reg ra) s.flags
  exact ⟨encodedAs_of_encode rfl, _, rfl, hend, hreg, hframe, rfl⟩

end Sys2Proof.Machine
end

section
/-! PROOFS. The modular multiplier family (41_modmul.md): the two completions of MODMUL. -/

namespace Sys2Proof.Machine

/-! ## The meaning of MODMUL, by its modulus (R142) -/

theorem exec_modmul_of_modulus_zero {rc : Reg} {s : State} (h : s.reg rc = 0) (rd ra rb : Reg) :
    exec (.modmul rd ra rb rc) s = .next (s.errorCompletion .invmod) :=
  if_pos h

theorem exec_modmul_of_modulus_ne_zero {rc : Reg} {s : State} (h : s.reg rc ≠ 0)
    (rd ra rb : Reg) :
    exec (.modmul rd ra rb rc) s =
      .next (s.setReg rd (s.reg ra * s.reg rb % s.reg rc)).succeed :=
  if_neg h

/-! ## The obligation -/

/-- Settles O32: a zero modulus is the error completion INVMOD, any other the write of the residue
with the flags as they were. -/
theorem modmulWritesTheProductResidue : Obligations.ModmulWritesTheProductResidue := by
  intro rd ra rb rc s
  refine ⟨encodedAs_of_encode rfl, fun hzero => ?_, fun hne => ?_⟩
  · exact failsWith_of_exec nofun (exec_modmul_of_modulus_zero hzero rd ra rb)
  · obtain ⟨hend, hreg, hframe⟩ :=
      completion_setReg_setFlags s rd (s.reg ra * s.reg rb % s.reg rc) s.flags
    exact ⟨_, exec_modmul_of_modulus_ne_zero hne rd ra rb, hend, hreg, hframe, rfl⟩

end Sys2Proof.Machine
end

section
/-! PROOFS. The modular exponentiation family (42_modexp.md): square and multiply computes the
power, and the two completions of MODEXP. -/

namespace Sys2Proof.Machine

/-! ## Square and multiply (R151) -/

theorem lt_two_pow_bitLength (e : Nat) : e < 2 ^ bitLength e := by
  by_cases he : e = 0
  · simp [bitLength, he]
  · rw [bitLength, if_neg he]
    exact Nat.lt_log2_self

theorem modpowLoop_zero_exponent (m k r b : Nat) : modpowLoop m k r b 0 = r := by
  cases k <;> rfl

/-- One iteration: the accumulator takes up the power of b that the lowest bit of e asks for. -/
theorem modpowLoop_succ {e : Nat} (he : e ≠ 0) (m k r b : Nat) :
    modpowLoop m (k + 1) (r % m) b e =
      modpowLoop m k (r * b ^ (e % 2) % m) (b * b % m) (e / 2) := by
  rw [modpowLoop, if_neg he]
  obtain heven | hodd := Nat.mod_two_eq_zero_or_one e
  · rw [if_neg (by omega), heven, pow_zero, mul_one]
    rfl
  · rw [if_pos hodd, hodd, pow_one, mulmod, Nat.mod_mul_mod]
    rfl

/-- Halving the exponent and squaring the base keeps the power, the lowest bit set apart. -/
theorem pow_mod_two_mul_sq_pow_half (b e : Nat) : b ^ (e % 2) * (b * b) ^ (e / 2) = b ^ e := by
  rw [← pow_two, ← pow_mul, ← pow_add, Nat.mod_add_div]

/-- The loop's invariant: accumulator times base to the remaining exponent, modulo m. -/
theorem modpowLoop_eq_mul_pow_mod (m : Nat) {k e : Nat} (he : e < 2 ^ k) (r b : Nat) :
    modpowLoop m k (r % m) b e = r * b ^ e % m := by
  induction k generalizing r b e with
  | zero =>
    obtain rfl : e = 0 := by omega
    rw [modpowLoop_zero_exponent, pow_zero, mul_one]
  | succ k ih =>
    by_cases h0 : e = 0
    · rw [h0, modpowLoop_zero_exponent, pow_zero, mul_one]
    · calc modpowLoop m (k + 1) (r % m) b e
        _ = r * b ^ (e % 2) * (b * b % m) ^ (e / 2) % m := by
          rw [modpowLoop_succ h0, ih (by omega)]
        _ = r * b ^ (e % 2) * (b * b) ^ (e / 2) % m :=
          ((Nat.mod_modEq (b * b) m).pow (e / 2)).mul_left _
        _ = r * b ^ e % m := by rw [mul_assoc, pow_mod_two_mul_sq_pow_half]

/-- The bits of e bound the iterations, and reducing the base first does not change the residue. For
the modulus 0 both sides are the power itself. -/
theorem modpow_eq_pow_mod (b e m : Nat) : modpow b e m = b ^ e % m := by
  rw [modpow, modpowLoop_eq_mul_pow_mod m (lt_two_pow_bitLength e), one_mul, ← Nat.pow_mod]

/-! ## The meaning of MODEXP, by its modulus (R152) -/

theorem exec_modexp_of_modulus_zero {rc : Reg} {s : State} (h : s.reg rc = 0) (rd ra rb : Reg) :
    exec (.modexp rd ra rb rc) s = .next (s.errorCompletion .invmod) :=
  if_pos h

theorem exec_modexp_of_modulus_ne_zero {rc : Reg} {s : State} (h : s.reg rc ≠ 0)
    (rd ra rb : Reg) :
    exec (.modexp rd ra rb rc) s =
      .next (s.setReg rd (s.reg ra ^ s.reg rb % s.reg rc)).succeed := by
  rw [← modpow_eq_pow_mod]
  exact if_neg h

/-! ## The obligation -/

/-- Settles O33: a zero modulus is the error completion INVMOD, any other the write of the loop's
result, which is the power's residue (`modpow_eq_pow_mod`), with the flags as they were. -/
theorem modexpWritesThePowerResidue : Obligations.ModexpWritesThePowerResidue := by
  intro rd ra rb rc s
  refine ⟨encodedAs_of_encode rfl, fun hzero => ?_, fun hne => ?_⟩
  · exact failsWith_of_exec nofun (exec_modexp_of_modulus_zero hzero rd ra rb)
  · obtain ⟨hend, hreg, hframe⟩ :=
      completion_setReg_setFlags s rd (s.reg ra ^ s.reg rb % s.reg rc) s.flags
    exact ⟨_, exec_modexp_of_modulus_ne_zero hne rd ra rb, hend, hreg, hframe, rfl⟩

end Sys2Proof.Machine
end

section
/-! PROOFS. The extended Euclid and inverse family (43_egcd_modinv.md): the loop is Mathlib's
`Nat.xgcdAux`, and the completions of EGCD and MODINV. -/

namespace Sys2Proof.Machine

/-! ## The loop computes the gcd and a Bezout pair (R161) -/

/-- The loop, run long enough for its row, is Mathlib's extended Euclid, with the two columns of
coefficients swapped: Mathlib names its operands in the other order. -/
theorem xgcdAux_eq_egcdLoop {k : Nat} {e : EgcdRow} (hk : e.r ≤ k) :
    Nat.xgcdAux e.r e.t e.s e.oldR e.oldT e.oldS =
      ((egcdLoop k e).oldR, (egcdLoop k e).oldT, (egcdLoop k e).oldS) := by
  induction k generalizing e with
  | zero => rw [Nat.le_zero.mp hk, Nat.xgcd_zero_left, egcdLoop]
  | succ k ih =>
    by_cases hr : e.r = 0
    · rw [hr, Nat.xgcd_zero_left, egcdLoop, if_pos hr]
    · have hlt : e.next.r < e.r := Nat.mod_lt _ (Nat.pos_of_ne_zero hr)
      rw [Nat.xgcdAux_rec (Nat.pos_of_ne_zero hr), egcdLoop, if_neg hr]
      exact ih (Nat.le_of_lt_succ (hlt.trans_le hk))

theorem egcdRow_eq_xgcd (a b : Nat) :
    (egcdG a b, egcdY a b, egcdX a b) = (Nat.gcd b a, Nat.gcdA b a, Nat.gcdB b a) := by
  rw [← Nat.xgcd_val, ← Nat.xgcdAux_val]
  exact (xgcdAux_eq_egcdLoop (e := .start a b) le_rfl).symm

theorem egcdG_eq_gcd (a b : Nat) : egcdG a b = Nat.gcd a b :=
  (congrArg Prod.fst (egcdRow_eq_xgcd a b)).trans (Nat.gcd_comm b a)

theorem egcdX_eq_gcdB (a b : Nat) : egcdX a b = Nat.gcdB b a :=
  congrArg (·.2.2) (egcdRow_eq_xgcd a b)

theorem egcdY_eq_gcdA (a b : Nat) : egcdY a b = Nat.gcdA b a :=
  congrArg (·.2.1) (egcdRow_eq_xgcd a b)

theorem mul_egcdX_add_mul_egcdY (a b : Nat) : a * egcdX a b + b * egcdY a b = Nat.gcd a b := by
  rw [egcdX_eq_gcdB, egcdY_eq_gcdA, add_comm, ← Nat.gcd_eq_gcd_ab, Nat.gcd_comm]

/-! ## The inverse (R160, R165) -/

theorem modInverse_of_gcd_ne_one {a m : Nat} (h : Nat.gcd a m ≠ 1) : modInverse a m = none :=
  if_neg (egcdG_eq_gcd a m ▸ h)

theorem modInverse_of_gcd_eq_one {a m : Nat} (h : Nat.gcd a m = 1) :
    modInverse a m = some (egcdX a m % m).toNat :=
  if_pos ((egcdG_eq_gcd a m).trans h)

section
variable {m : Nat} (hm : m ≠ 0) (x : Int)
include hm

theorem coe_toNat_emod : ((x % m).toNat : Int) = x % m :=
  Int.toNat_of_nonneg (Int.emod_nonneg x (Int.natCast_ne_zero.mpr hm))

theorem toNat_emod_lt : (x % m).toNat < m := by
  have := Int.emod_lt_of_pos x (Int.natCast_pos.mpr (Nat.pos_of_ne_zero hm))
  have := coe_toNat_emod hm x
  omega

end

/-- Modulo m the identity `a x + m y = 1` reads `a x = 1`. -/
theorem mul_toNat_egcdX_emod {a m : Nat} (hm : m ≠ 0) (h : Nat.gcd a m = 1) :
    a * (egcdX a m % m).toNat % m = 1 % m := by
  have hbezout : a * egcdX a m + m * egcdY a m = 1 := by
    rw [mul_egcdX_add_mul_egcdY, h, Nat.cast_one]
  zify
  calc a * ((egcdX a m % m).toNat : Int) % m
      = a * (egcdX a m % m) % m := by rw [coe_toNat_emod hm]
    _ = a * egcdX a m % m := (Int.mod_modEq _ _).mul_left _
    _ = 1 % m := by rw [← hbezout, Int.add_mul_emod_self_left]

/-! ## The meaning of EGCD, by its destinations (R162, R163) -/

section
variable {rd rc re : Reg}

theorem exec_egcd_of_equal_dests (h : rd = rc ∨ rd = re ∨ rc = re) (ra rb : Reg) (s : State) :
    exec (.egcd rd ra rb rc re) s = .next (s.errorCompletion .illegal) :=
  if_pos h

theorem exec_egcd_of_distinct_dests (hdc : rd ≠ rc) (hde : rd ≠ re) (hce : rc ≠ re)
    (ra rb : Reg) (s : State) :
    exec (.egcd rd ra rb rc re) s =
      .next ((((s.setReg rd (egcdG (s.reg ra) (s.reg rb))).setReg rc
        (egcdX (s.reg ra) (s.reg rb)).natAbs).setReg re
        (egcdY (s.reg ra) (s.reg rb)).natAbs).setFlags
        (s.flags.ofBezout (egcdX (s.reg ra) (s.reg rb)) (egcdY (s.reg ra) (s.reg rb)))).succeed :=
  if_neg (by simp [hdc, hde, hce])

/-- Three distinct registers and the flags written, followed by success. -/
theorem completion_setReg_three (hdc : rd ≠ rc) (hde : rd ≠ re) (hce : rc ≠ re) (s : State)
    (g x y : Nat) (f : Flags) {t : State}
    (ht : t = ((((s.setReg rd g).setReg rc x).setReg re y).setFlags f).succeed) :
    EndedWith .ok s t ∧ t.reg rd = g ∧ t.reg rc = x ∧ t.reg re = y ∧
      SameRegsBut [rd, rc, re] s t := by
  subst ht
  refine ⟨endedWith_succeed ⟨rfl, rfl, rfl, rfl, rfl⟩ rfl, ?_, ?_, ?_, ?_⟩
  · simp [State.reg_setReg_of_ne, hde, hdc]
  · simp [State.reg_setReg_of_ne, hce]
  · simp
  · exact ((sameRegsBut_setReg s rd g (by simp)).trans (sameRegsBut_setReg _ rc x (by simp))).trans
      (sameRegsBut_setReg _ re y (by simp))

end

theorem Flags.ofBezout_xneg_iff (f : Flags) (x y : Int) : (f.ofBezout x y).xneg = true ↔ x < 0 :=
  decide_eq_true_iff

theorem Flags.ofBezout_yneg_iff (f : Flags) (x y : Int) : (f.ofBezout x y).yneg = true ↔ y < 0 :=
  decide_eq_true_iff

/-! ## The meaning of MODINV, by its modulus and the gcd (R165) -/

section
variable {ra rc : Reg} {s : State}

theorem exec_modinv_of_modulus_zero (h : s.reg rc = 0) (rd ra : Reg) :
    exec (.modinv rd ra rc) s = .next (s.errorCompletion .invmod) :=
  if_pos h

theorem exec_modinv_of_gcd_ne_one (hm : s.reg rc ≠ 0) (h : Nat.gcd (s.reg ra) (s.reg rc) ≠ 1)
    (rd : Reg) : exec (.modinv rd ra rc) s = .next (s.errorCompletion .noinv) := by
  simp [exec, execModinv, hm, modInverse_of_gcd_ne_one h]

theorem exec_modinv_of_gcd_eq_one (hm : s.reg rc ≠ 0) (h : Nat.gcd (s.reg ra) (s.reg rc) = 1)
    (rd : Reg) :
    exec (.modinv rd ra rc) s =
      .next (s.setReg rd (egcdX (s.reg ra) (s.reg rc) % s.reg rc).toNat).succeed := by
  simp [exec, execModinv, hm, modInverse_of_gcd_eq_one h]

end

/-! ## The obligations -/

/-- Settles O39: the loop's g is the gcd and its x, y the Bezout pair of Mathlib's extended Euclid;
the writes to distinct registers do not disturb each other, and all operands are read before. -/
theorem egcdWritesGcdAndBezoutPair : Obligations.EgcdWritesGcdAndBezoutPair := by
  intro rd ra rb rc re s hdc hde hce
  obtain ⟨hend, hg, hx, hy, hframe⟩ := completion_setReg_three hdc hde hce s
    (egcdG (s.reg ra) (s.reg rb)) (egcdX (s.reg ra) (s.reg rb)).natAbs
    (egcdY (s.reg ra) (s.reg rb)).natAbs
    (s.flags.ofBezout (egcdX (s.reg ra) (s.reg rb)) (egcdY (s.reg ra) (s.reg rb))) rfl
  have hgcd := hg.trans (egcdG_eq_gcd (s.reg ra) (s.reg rb))
  refine ⟨encodedAs_of_encode rfl, _, _, _, exec_egcd_of_distinct_dests hdc hde hce ra rb s, hend,
    rfl, rfl, hg, hgcd, ?_, ?_, ?_, Flags.ofBezout_xneg_iff _ _ _, Flags.ofBezout_yneg_iff _ _ _,
    rfl, rfl, rfl, hframe⟩
  · rw [hx, Int.natCast_natAbs]
  · rw [hy, Int.natCast_natAbs]
  · rw [hgcd, mul_egcdX_add_mul_egcdY]

/-- Settles O44: the modulus is tested before the gcd, and the value written is the loop's x reduced
into [0, m), an inverse by the Bezout identity. -/
theorem modinvWritesTheInverse : Obligations.ModinvWritesTheInverse := by
  intro rd ra rc s
  refine ⟨encodedAs_of_encode rfl, fun hzero => ?_, fun hm hgcd => ?_, fun hm hgcd => ?_⟩
  · exact failsWith_of_exec nofun (exec_modinv_of_modulus_zero hzero rd ra)
  · exact failsWith_of_exec nofun (exec_modinv_of_gcd_ne_one hm hgcd rd)
  · obtain ⟨hend, hreg, hframe⟩ :=
      completion_setReg_setFlags s rd (egcdX (s.reg ra) (s.reg rc) % s.reg rc).toNat s.flags
    refine ⟨_, exec_modinv_of_gcd_eq_one hm hgcd rd, hend, ?_, ?_, ?_, hframe, rfl⟩
    · exact (congrArg Nat.cast hreg).trans (coe_toNat_emod hm _)
    · exact hreg.trans_lt (toNat_emod_lt hm _)
    · exact hreg.symm ▸ mul_toNat_egcdX_emod hm hgcd

/-- Settles O38: the test on the destinations comes first, and past it there is no other failure. -/
theorem egcdDestinationsMustDiffer : Obligations.EgcdDestinationsMustDiffer := by
  intro rd ra rb rc re s
  refine ⟨fun h => ?_, fun hdc hde hce => ?_⟩
  · exact failsWith_of_exec nofun (exec_egcd_of_equal_dests h ra rb s)
  · exact ⟨_, exec_egcd_of_distinct_dests hdc hde hce ra rb s,
      endedWith_succeed ⟨rfl, rfl, rfl, rfl, rfl⟩ rfl⟩

/-- Settles O40: the rows and the exit of the loop, each by running it. -/
theorem egcdTraceOfTheExample : Obligations.EgcdTraceOfTheExample :=
  ⟨rfl, rfl, rfl, rfl, rfl, rfl, rfl, rfl, rfl, rfl, rfl, rfl⟩

end Sys2Proof.Machine
end

section
/-! PROOFS. The primality family (44_primality.md): the screening, the decomposition of n - 1, one
witness round as the condition of R182, and the completions of PRIME and MRROUND. -/

namespace Sys2Proof.Machine

/-! ## The screening and the decomposition (R181) -/

theorem screen_eq_iff (n : Nat) :
    (screen n = .prime ↔ n = 2 ∨ n = 3) ∧
    (screen n = .composite ↔ n < 2 ∨ (n ≠ 2 ∧ n % 2 = 0)) ∧
    (screen n = .test ↔ 5 ≤ n ∧ n % 2 = 1) := by
  unfold screen
  split_ifs with hsmall hprime heven
  all_goals
    simp only [false_iff, true_iff]
    omega

/-- Enough halvings of `2^k · d` with d odd count k and stop at d. -/
theorem halve_two_pow_mul_odd {d : Nat} (hd : d % 2 = 1) {k fuel : Nat} (hk : k ≤ fuel) :
    halve fuel (2 ^ k * d) = (k, d) := by
  induction k generalizing fuel with
  | zero =>
    rw [pow_zero, one_mul]
    cases fuel with
    | zero => rfl
    | succ fuel => exact if_neg (by omega)
  | succ k ih =>
    obtain ⟨fuel, rfl⟩ := Nat.exists_eq_add_of_lt hk
    have hdouble : 2 ^ (k + 1) * d = 2 * (2 ^ k * d) := by ring
    rw [hdouble, halve, if_pos (Nat.mul_mod_right 2 _), Nat.mul_div_cancel_left _ two_pos,
      ih (by omega)]

/-- A factor `2^k` of a positive number below `2^width` has k below the width. -/
theorem lt_of_two_pow_mul_lt {k d width : Nat} (hd : d % 2 = 1) (h : 2 ^ k * d < 2 ^ width) :
    k < width :=
  (Nat.pow_lt_pow_iff_right one_lt_two).mp
    ((Nat.le_mul_of_pos_right _ (by omega)).trans_lt h)

/-- The bits of n - 1 bound its halvings, so every way to write it gives the one pair. -/
theorem decompose_eq {n k d : Nat} (h : n - 1 = 2 ^ k * d) (hd : d % 2 = 1) :
    decompose n = (k, d) := by
  have hk : k < bitLength (2 ^ k * d) := lt_of_two_pow_mul_lt hd (lt_two_pow_bitLength _)
  rw [decompose, h, halve_two_pow_mul_odd hd hk.le]

/-! ## One round is the condition of R182 -/

theorem sq_mod_pow_two_pow (n x j : Nat) :
    (x * x % n) ^ 2 ^ j % n = x ^ 2 ^ (j + 1) % n := by
  rw [← Nat.pow_mod, ← pow_two, ← pow_mul, pow_succ']

/-- The loop also stops when it meets 1: all later squares are 1 then, and n - 1 is not. -/
theorem squarings_eq_true_iff {n : Nat} (hn : 3 ≤ n) (k x : Nat) :
    squarings n k x = true ↔ ∃ j, j < k ∧ x ^ 2 ^ (j + 1) % n = n - 1 := by
  induction k generalizing x with
  | zero => simp [squarings]
  | succ k ih =>
    rw [squarings, mulmod, Nat.exists_lt_succ_left, zero_add, pow_one, pow_two]
    split_ifs with hminus hone
    · exact iff_of_true rfl (.inl hminus)
    · have hstays (j : Nat) : x ^ 2 ^ (j + 1) % n = 1 := by
        rw [← sq_mod_pow_two_pow, hone, one_pow, Nat.mod_eq_of_lt (by omega)]
      refine iff_of_false id (not_or.mpr ⟨hminus, ?_⟩)
      rintro ⟨j, -, hj⟩
      have := hstays (j + 1)
      omega
    · rw [ih, or_iff_right hminus]
      simp only [sq_mod_pow_two_pow]

theorem mrRound_eq_true_iff {n k d : Nat} (hn : 3 ≤ n) (h : n - 1 = 2 ^ k * d) (hd : d % 2 = 1)
    (hk : 1 ≤ k) (a : Nat) : mrRound n a = true ↔ StrongPass n a k d := by
  have hpow (j : Nat) : (a ^ d % n) ^ 2 ^ j % n = a ^ (2 ^ j * d) % n := by
    rw [← Nat.pow_mod, ← pow_mul, mul_comm]
  obtain ⟨k, rfl⟩ := Nat.exists_eq_add_of_le' hk
  rw [mrRound, decompose_eq h hd, StrongPass, Nat.exists_lt_succ_left, modpow_eq_pow_mod, pow_zero,
    one_mul]
  simp only [Bool.if_true_left, Bool.or_eq_true, decide_eq_true_eq, squarings_eq_true_iff hn,
    Nat.add_sub_cancel, hpow, or_assoc]

/-! ## The two verdicts, by the screening (R183, R185) -/

section
variable {n : Nat}

theorem roundVerdict_of_composite (h : screen n = .composite) (a : Nat) :
    roundVerdict n a = false := by
  rw [roundVerdict, h]

theorem roundVerdict_of_prime (h : screen n = .prime) (a : Nat) : roundVerdict n a = true := by
  rw [roundVerdict, h]

theorem roundVerdict_iff_strongPass {k d : Nat} (h5 : 5 ≤ n) (h : n - 1 = 2 ^ k * d)
    (hd : d % 2 = 1) (hk : 1 ≤ k) (a : Nat) :
    roundVerdict n a = true ↔ StrongPass n a k d := by
  have hodd : n % 2 = 1 := by
    have := (dvd_pow_self 2 (by omega : k ≠ 0)).mul_right d
    omega
  obtain ⟨-, -, htest⟩ := screen_eq_iff n
  rw [roundVerdict, htest.mpr ⟨h5, hodd⟩]
  exact mrRound_eq_true_iff (by omega) h hd hk a

/-- R186: the screening is that of every single round, and past it PRIME runs the five rounds. -/
theorem isProbablePrime_iff_roundVerdict :
    isProbablePrime n = true ↔ ∀ a ∈ [2, 3, 5, 7, 11], roundVerdict n a = true := by
  rw [← List.all_eq_true, isProbablePrime]
  unfold roundVerdict
  cases screen n <;> rfl

theorem isProbablePrime_of_composite (h : screen n = .composite) : isProbablePrime n = false := by
  rw [isProbablePrime, h]

theorem isProbablePrime_of_prime (h : screen n = .prime) : isProbablePrime n = true := by
  rw [isProbablePrime, h]

theorem isProbablePrime_iff_strongPass {k d : Nat} (h5 : 5 ≤ n) (h : n - 1 = 2 ^ k * d)
    (hd : d % 2 = 1) (hk : 1 ≤ k) :
    isProbablePrime n = true ↔ ∀ a ∈ [2, 3, 5, 7, 11], StrongPass n a k d := by
  simp only [isProbablePrime_iff_roundVerdict, roundVerdict_iff_strongPass h5 h hd hk]

end

/-! ## The meaning of MRROUND, by its witness (R185) -/

section
variable {rb : Reg} {s : State}

theorem exec_mrround_of_witness_lt_two (h : s.reg rb < 2) (ra : Reg) :
    exec (.mrround ra rb) s = .next (s.errorCompletion .range) :=
  if_pos h

theorem exec_mrround_of_two_le_witness (h : 2 ≤ s.reg rb) (ra : Reg) :
    exec (.mrround ra rb) s =
      .next (s.setFlags (s.flags.ofVerdict (roundVerdict (s.reg ra) (s.reg rb)))).succeed :=
  if_neg (Nat.not_lt.mpr h)

/-- MRROUND with the witness register at w ≥ 2, another register than that of n. -/
theorem mrround_setReg_leaves_p_iff {ra : Reg} {w : Nat} (hne : ra ≠ rb) (hw : 2 ≤ w) :
    (∃ u, exec (.mrround ra rb) (s.setReg rb w) = .next u ∧ u.flags.p = true) ↔
      roundVerdict (s.reg ra) w = true := by
  rw [exec_mrround_of_two_le_witness (by rwa [State.reg_setReg_self]), State.reg_setReg_self,
    State.reg_setReg_of_ne s w hne]
  simp [Flags.ofVerdict]

end

/-! ## The obligations -/

/-- Settles O45: the screening by its branches; every decomposition is the one that the halvings
find, and there is one. -/
theorem screeningAndDecomposition : Obligations.ScreeningAndDecomposition := by
  refine ⟨screen_eq_iff, fun n hn => ?_⟩
  obtain ⟨-, -, htest⟩ := screen_eq_iff n
  obtain ⟨h5, hodd⟩ := htest.mp hn
  obtain ⟨k, d, hd, h⟩ := Nat.exists_eq_two_pow_mul_odd (n := n - 1) (by omega)
  rw [Nat.odd_iff] at hd
  rw [decompose_eq h hd]
  refine ⟨h, hd, ?_, by omega, ?_, fun k' d' h' hd' => ?_, fun width hwidth => ?_⟩
  · by_contra hk
    obtain rfl : k = 0 := by omega
    omega
  · rw [h, Nat.shiftRight_eq_div_pow, Nat.mul_div_cancel_left d (Nat.two_pow_pos k)]
  · exact Prod.ext_iff.mp ((decompose_eq h' hd').symm.trans (decompose_eq h hd))
  · exact Nat.le_sub_one_of_lt (lt_of_two_pow_mul_lt hd (h.symm.trans_lt (by omega)))

/-- Settles O46: PRIME sets P to the verdict alone; the screening or the five rounds decide it. -/
theorem primeSetsPByFiveWitnesses : Obligations.PrimeSetsPByFiveWitnesses := by
  intro ra s
  obtain ⟨hprime, hcomposite, -⟩ := screen_eq_iff (s.reg ra)
  refine ⟨encodedAs_of_encode rfl, _, rfl, endedWith_succeed ⟨rfl, rfl, rfl, rfl, rfl⟩ rfl,
    fun _ => rfl, rfl, rfl, rfl, rfl, fun hlt => ?_, fun h23 => ?_, fun hlt heven => ?_, ?_⟩
  · exact isProbablePrime_of_composite (hcomposite.mpr (.inl hlt))
  · exact isProbablePrime_of_prime (hprime.mpr h23)
  · exact isProbablePrime_of_composite (hcomposite.mpr (.inr ⟨hlt.ne', heven⟩))
  · exact fun k d => isProbablePrime_iff_strongPass

/-- Settles O47: the witness is tested before the screening; past it MRROUND sets P to the verdict
alone, by the screening or the one round. -/
theorem mrroundSetsPByOneWitness : Obligations.MrroundSetsPByOneWitness := by
  intro ra rb s
  obtain ⟨hprime, hcomposite, -⟩ := screen_eq_iff (s.reg ra)
  refine ⟨encodedAs_of_encode rfl, fun hw => ?_, fun hw => ?_⟩
  · exact failsWith_of_exec nofun (exec_mrround_of_witness_lt_two hw ra)
  refine ⟨_, exec_mrround_of_two_le_witness hw ra,
    endedWith_succeed ⟨rfl, rfl, rfl, rfl, rfl⟩ rfl, fun _ => rfl, rfl, rfl, rfl, rfl,
    fun hlt => ?_, fun h23 => ?_, fun hlt heven => ?_, fun k d h5 h hd hk => ?_⟩
  · exact roundVerdict_of_composite (hcomposite.mpr (.inl hlt)) _
  · exact roundVerdict_of_prime (hprime.mpr h23) _
  · exact roundVerdict_of_composite (hcomposite.mpr (.inr ⟨hlt.ne', heven⟩)) _
  · exact roundVerdict_iff_strongPass h5 h hd hk _

/-- Settles O50: each of the five witnesses is at least 2, so its round leaves the round's verdict,
and PRIME's verdict is the AND of these. -/
theorem primeIsTheAndOfFiveRounds : Obligations.PrimeIsTheAndOfFiveRounds := by
  intro ra rb s t hne ht
  cases ht
  have hwitness : ∀ w ∈ [2, 3, 5, 7, 11], 2 ≤ w := by decide
  exact isProbablePrime_iff_roundVerdict.trans
    (forall₂_congr fun w hw => (mrround_setReg_leaves_p_iff hne (hwitness w hw)).symm)

end Sys2Proof.Machine
end

section
/-! PROOFS. The system family (45_system.md): the one word of NOP and its lifecycle. -/

namespace Sys2Proof

/-! ## The words with opcode 0 (R200, 30_encoding.md R98) -/

/-- A word is 0 exactly when its opcode and the 24 bits below it are. -/
theorem word_eq_zero_iff {w : Word} : w = 0 ↔ slice w 31 24 = 0 ∧ slice w 23 0 = 0 := by
  obtain ⟨-, -, -, -, -, hw⟩ := slice_eq_fields w
  rw [← BitVec.toNat_inj, show (0 : Word).toNat = 0 from rfl]
  omega

theorem ifZero_of_ne_zero {z : Nat} (h : z ≠ 0) (i : Instr) : ifZero z i = .error .mustBeZero :=
  if_neg h

/-- NOP's row has no operand, so any bit below the opcode must be zero. -/
theorem decode_of_nop_opcode {w : Word} (hop : slice w 31 24 = 0) (hw : w ≠ 0) :
    decode w = .error .mustBeZero := by
  have hlow : slice w 23 0 ≠ 0 := fun h => hw (word_eq_zero_iff.mpr ⟨hop, h⟩)
  exact (decode_of_opcode .nop hop).trans (ifZero_of_ne_zero hlow _)

end Sys2Proof

namespace Sys2Proof.Machine

/-! ## The completion of NOP (R200) -/

theorem exec_nop (s : State) : exec .nop s = .next s.succeed := rfl

theorem complete_of_decode_ok {s : State} {i : Instr} (h : decode s.cmdr = .ok i) :
    complete s = exec i s := by
  rw [complete, h]

/-! ## The obligation -/

/-- Settles O24: 0 is the word of NOP, so the write of 0 to CMD puts NOP in flight
(`transact_cmdWrite`), and the planned completion that follows is NOP's, which is `State.succeed`. -/
theorem nopCompletesAndWritesNothing : Obligations.NopCompletesAndWritesNothing := by
  have hword : EncodedAs .nop 0 := encodedAs_of_encode rfl
  refine ⟨hword, rfl, rfl, fun s => ?_, fun w => decode_of_nop_opcode, fun s rest hb hr => ?_⟩
  · exact ⟨_, exec_nop s, endedWith_succeed ⟨rfl, rfl, rfl, rfl, rfl⟩ rfl, fun _ => rfl, rfl⟩
  · have hdecode : decode 0 = .ok .nop := (hword 0).mpr rfl
    rw [step_transaction hr, transact_cmdWrite, if_neg (by simp [hb])]
    exact ⟨_, _, rfl, rfl, rfl, rfl,
      (step_completion rfl rfl).trans ((complete_of_decode_ok hdecode).trans (exec_nop _)),
      rfl, rfl, rfl, rfl, fun _ => rfl, rfl⟩

end Sys2Proof.Machine
end

section
/-! PROOFS. The exceptions family (60_exceptions.md): what an error completion leaves behind. -/

namespace Sys2Proof.Machine

/-! ## The whole next state of an error completion, and the CMD write that follows it (R243) -/

/-- The two pending bits of an error completion as the one mask of R243. -/
theorem State.errorCompletion_eq (s : State) (e : ErrCode) :
    s.errorCompletion e =
      { s with busy := false, done := true, errc := e, istat := s.istat ||| 0b011#3 } :=
  congrArg (fun p => { s with busy := false, done := true, errc := e, istat := p })
    (BitVec.or_assoc s.istat doneBit errBit)

/-- A completion with a nonzero code is the error completion with that code. -/
theorem eq_errorCompletion_of_complete {s t : State} (h : complete s = .next t)
    (he : t.errc ≠ .ok) : t = s.errorCompletion t.errc := by
  obtain ⟨t', h', -, herror⟩ := complete_next s
  cases h.symm.trans h'
  exact herror he

theorem memWrite_cmd_idle {s : State} (v : Word) (hb : s.busy = false) :
    memWrite 0x010 .word v s = (⟨.okay, 0⟩, s.accept v) := by
  rw [memWrite_cmd, if_neg (by simp [hb])]

/-! ## The obligation -/

/-- Settles O14: a completion with a nonzero code is the error completion, which leaves the block
idle, so the next CMD write is an acceptance; and acceptance clears ERRC and keeps ISTAT. -/
theorem errorCompletionWritesNothing : Obligations.ErrorCompletionWritesNothing := by
  intro s t ht he
  have herror : t = s.errorCompletion t.errc := eq_errorCompletion_of_complete ht he
  have hidle : t.busy = false := by rw [herror, State.errorCompletion_busy]
  exact ⟨herror.trans (s.errorCompletion_eq t.errc),
    fun v => ⟨t.accept v, memWrite_cmd_idle v hidle, rfl, rfl, rfl, rfl⟩⟩

end Sys2Proof.Machine
end

section
/-! PROOFS. The reset and hazard family (70_reset_and_hazards.md): the one hazard, the registers that
stay open while BUSY, and what sets HAZ_IP. -/

namespace Sys2Proof.Machine

/-! ## The registers that stay open while BUSY (R276) -/

/-- BUSY is bit 0 of the word at 0x00C, below the other fields (20_memory.md R66). -/
theorem State.statusWord_getLsbD (s : State) (k : Nat) :
    s.statusWord.getLsbD k = if k = 0 then s.busy
      else (0#24 ++ s.errc.bits ++ 0#2 ++ BitVec.ofBool s.done).getLsbD (k - 1) :=
  BitVec.getLsbD_concat _ s.busy k

theorem State.statusWord_withBusy_getLsbD (s : State) (b : Bool) (k : Nat) :
    { s with busy := b }.statusWord.getLsbD k = if k = 0 then b else s.statusWord.getLsbD k := by
  rw [State.statusWord_getLsbD, State.statusWord_getLsbD]
  split <;> rfl

section
variable {a : Addr} (hc : a.toNat < 0x20) (h4 : a.toNat % 4 = 0) (hcmd : a ≠ 0x010) (s : State)
  (b : Bool)
include hc

theorem memRead_control_state (n : Size) : (memRead a n s).2 = s := by
  obtain h | ⟨-, -, -, hw, -⟩ := memRead_state a n s
  · exact h
  · omega

theorem target_ne_unmapped_of_control : target a ≠ .unmapped := by
  rw [ne_eq, target_eq_unmapped_iff]; omega

include h4

/-- Of the control registers only STATUS looks at BUSY when it is read. -/
theorem memRead_control_withBusy (hstatus : a ≠ 0x00C) :
    (memRead a .word { s with busy := b }).1 = (memRead a .word s).1 := by
  obtain rfl | rfl | rfl | rfl | rfl | rfl | rfl | rfl := controlAddr_cases hc h4
  case inr.inr.inr.inl => exact absurd rfl hstatus
  all_goals rfl

include hcmd

/-- No control register but CMD looks at BUSY when it is written, and a soft reset clears it. -/
theorem memWrite_control_withBusy (v : Word) :
    memWrite a .word v { s with busy := b } = ((memWrite a .word v s).1,
      { (memWrite a .word v s).2 with
        busy := if a = 0x008 ∧ v.getLsbD 0 = true then false else b }) := by
  obtain rfl | rfl | rfl | rfl | rfl | rfl | rfl | rfl := controlAddr_cases hc h4
  case inr.inr.inl =>
    rw [memWrite_ctrl, memWrite_ctrl]
    cases v.getLsbD 0 <;> rfl
  case inr.inr.inr.inr.inl => exact absurd rfl hcmd
  all_goals rfl

end

/-! ## What sets HAZ_IP (R276) -/

/-- The transactions that R276 closes while BUSY: an access of the window or a write of CMD. -/
def Transaction.IsClosed (tr : Transaction) : Prop :=
  ∃ a v, a.toNat % 4 = 0 ∧
    ((tr = .read a .word ∧ 0x2000 ≤ a.toNat) ∨
      (tr = .write a .word v ∧ (0x2000 ≤ a.toNat ∨ a = 0x010)))

/-- A completion sets DONE_IP and ERR_IP at most (10_state.md R44). -/
theorem EndedWith.haz {e : ErrCode} {s t : State} (h : EndedWith e s t) :
    t.istat.getLsbD 2 = s.istat.getLsbD 2 := by
  have hbits : (completionBits e).getLsbD 2 = false := by cases e <;> rfl
  rw [h.istat, BitVec.getLsbD_or, hbits, Bool.or_false]

theorem transact_sets_haz {tr : Transaction} {s : State} (hs : s.istat.getLsbD 2 = false)
    (ht : (transact tr s).istat.getLsbD 2 = true) : s.busy = true ∧ tr.IsClosed := by
  have hclear : s.istat.getLsbD 2 ≠ true := Bool.eq_false_iff.mp hs
  obtain ⟨s', r, e, -, (rfl | ⟨hb, -, a, ha, h4, hw⟩) | ⟨a, n, v, rfl, hw⟩⟩ := transact_eq tr s
  · rw [e] at ht
    exact absurd ht hclear
  · exact ⟨hb, a, 0, h4, .inl ⟨ha, hw⟩⟩
  · rw [e] at ht
    cases hw with
    | hazard hb hn h4 hw => exact ⟨hb, a, v, h4, .inr ⟨by rw [hn], hw⟩⟩
    | softReset => simp at ht
    | acknowledge =>
      rw [BitVec.getLsbD_and, hs, Bool.false_and] at ht
      exact absurd ht Bool.false_ne_true
    | _ => exact absurd ht hclear

/-- A step that sets HAZ_IP is the transaction of a closed address while BUSY. -/
theorem step_sets_haz {s t : State} (h : step s = .next t) (hs : s.istat.getLsbD 2 = false)
    (ht : t.istat.getLsbD 2 = true) :
    s.busy = true ∧ ∃ tr rest, s.turns = .transaction tr :: rest ∧ tr.IsClosed := by
  have hclear : s.istat.getLsbD 2 ≠ true := Bool.eq_false_iff.mp hs
  obtain ⟨-, h'⟩ | ⟨-, -, h'⟩ | ⟨rest, -, h'⟩ | ⟨tr, rest, hr, h'⟩ := step_cases s
  · obtain ⟨t', hc, he, -⟩ := complete_next { s with turns := s.turns.tail }
    cases (h'.trans hc).symm.trans h
    exact absurd (he.haz.symm.trans ht) hclear
  · cases h'.symm.trans h
    exact absurd ht hclear
  · cases h'.symm.trans h
    simp at ht
  · cases h'.symm.trans h
    obtain ⟨hb, hclosed⟩ := transact_sets_haz (s := { s with turns := rest }) hs ht
    exact ⟨hb, tr, rest, hr, hclosed⟩

/-! ## The obligation -/

/-- Settles O56: the closed accesses are the lemmas on the busy window and CMD, the open registers
those on `busy` replaced, and `step_sets_haz` says that nothing else sets HAZ_IP. -/
theorem hazardIsTheWindowOrCmdWhileBusy : Obligations.HazardIsTheWindowOrCmdWhileBusy := by
  refine ⟨fun s a v hb h4 => ⟨memRead_window_busy hb h4, memWrite_busy v hb h4, rfl⟩,
    fun s a v b hc h4 hcmd => ?_, fun s t h hs ht => ?_⟩
  · have hwell : wellFormedAccess a .word = true := wellFormedAccess_iff.mpr ⟨rfl, h4⟩
    have hmapped : target a ≠ .unmapped := target_ne_unmapped_of_control hc
    have hwrite := memWrite_control_withBusy hc h4 hcmd s b v
    refine ⟨memRead_control_state hc _ .word, memRead_resp_okay hwell hmapped _,
      memRead_control_withBusy hc h4 s b, ?_, by rw [hwrite],
      memWrite_resp_okay hwell hmapped v _, by rw [hwrite]⟩
    rintro rfl k
    exact s.statusWord_withBusy_getLsbD b k
  · obtain ⟨hb, tr, rest, hr, a, v, h4, hclosed⟩ := step_sets_haz h hs ht
    refine ⟨hb, a, v, rest, h4, ?_⟩
    obtain ⟨rfl, hw⟩ | ⟨rfl, hw⟩ := hclosed
    · exact .inl ⟨hr, hw⟩
    · exact .inr ⟨hr, hw⟩

end Sys2Proof.Machine
end

section
/-! PROOFS. The encoder and the decoder as inverses, and the pseudo-instructions
(30_encoding.md). -/

namespace Sys2Proof.Machine

/-- Settles O6: `decode_eq_ok_iff`, read from the right. -/
theorem decodeOfEncodeIsTheCommand : Obligations.DecodeOfEncodeIsTheCommand :=
  fun _ => decode_eq_ok_iff.mpr rfl

/-- Settles O7: `decode_eq_ok_iff`, read from the left. -/
theorem encodeOfDecodeIsTheWord : Obligations.EncodeOfDecodeIsTheWord :=
  fun _ _ h => (decode_eq_ok_iff.mp h).symm

/-- Settles O9: the commands by the definition of the two names, the words by that of `encode`. -/
theorem pseudoInstructionsExpand : Obligations.PseudoInstructionsExpand :=
  fun _ _ _ => ⟨rfl, by simp [clr, encode], rfl, rfl⟩

end Sys2Proof.Machine
end

section
/-! PROOFS. The Euclid loop (43_egcd_modinv.md R161, R164, R167): its exit, the size of the
coefficients it leaves, and its number of iterations. -/

namespace Sys2Proof.Machine

/-! ## The exit of the loop (R161) -/

theorem EgcdRow.next_r_lt {e : EgcdRow} (hr : e.r ≠ 0) : e.next.r < e.r :=
  Nat.mod_lt _ (Nat.pos_of_ne_zero hr)

theorem egcdLoop_r_eq_zero {k : Nat} {e : EgcdRow} (hk : e.r ≤ k) : (egcdLoop k e).r = 0 := by
  induction k generalizing e with
  | zero => exact Nat.le_zero.mp hk
  | succ k ih =>
    rw [egcdLoop]
    split
    next hr => exact hr
    next hr => exact ih (Nat.le_of_lt_succ ((EgcdRow.next_r_lt hr).trans_le hk))

/-! ## The size of the coefficients (R164) -/

/-- One column of coefficients beside the two remainders: the entries c₀ above c₁ have opposite
signs and balance against the remainders to D, the operand of the other column. At the exit c₀ is at
most half of c₁ unless it is one of the column's earliest entries; that is so because the remainders
decrease strictly from the second row on, so that the last quotient is at least 2. -/
structure SmallColumn (D oldR r : Nat) (c₀ c₁ : Int) : Prop where
  signs : c₀ * c₁ ≤ 0
  balance : oldR * c₁.natAbs + r * c₀.natAbs = D
  decreasing : r < oldR ∨ c₁.natAbs ≤ 1
  half : r = 0 → c₀.natAbs ≤ 1 ∨ 0 < oldR ∧ 2 * c₀.natAbs ≤ c₁.natAbs

/-- Subtracting a multiple of an integer of the opposite sign adds the magnitudes. -/
theorem natAbs_sub_mul_of_mul_nonpos {c₀ c₁ : Int} (h : c₀ * c₁ ≤ 0) (q : Nat) :
    (c₀ - q * c₁).natAbs = c₀.natAbs + q * c₁.natAbs := by
  have hsigns : c₀ * (q * c₁) ≤ 0 := by
    rw [mul_left_comm]
    exact mul_nonpos_of_nonneg_of_nonpos q.cast_nonneg h
  have hmul : (q * c₁ : Int).natAbs = q * c₁.natAbs := by rw [Int.natAbs_mul, Int.natAbs_natCast]
  rw [← hmul]
  obtain ⟨h₀, h₁⟩ | ⟨h₀, h₁⟩ := mul_nonpos_iff.mp hsigns
  · omega
  · omega

/-- An iteration keeps the column small. -/
theorem SmallColumn.next {D oldR r : Nat} {c₀ c₁ : Int} (h : SmallColumn D oldR r c₀ c₁)
    (hr : 0 < r) : SmallColumn D r (oldR % r) c₁ (c₀ - (oldR / r : Nat) * c₁) := by
  have habs := natAbs_sub_mul_of_mul_nonpos h.signs (oldR / r)
  refine ⟨?_, ?_, .inl (Nat.mod_lt _ hr), fun hexit => ?_⟩
  · have hsq : 0 ≤ (oldR / r : Nat) * (c₁ * c₁) :=
      mul_nonneg (Nat.cast_nonneg _) (mul_self_nonneg _)
    linear_combination h.signs + hsq
  · rw [habs, ← h.balance]
    linear_combination c₁.natAbs * Nat.div_add_mod oldR r
  · refine h.decreasing.symm.imp_right fun hlt => ⟨hr, ?_⟩
    have hquot : 2 ≤ oldR / r := by
      have hexact := Nat.div_add_mod oldR r
      by_contra hq
      have : r * (oldR / r) ≤ r * 1 := Nat.mul_le_mul_left r (by omega)
      omega
    rw [habs]
    exact (Nat.mul_le_mul_right _ hquot).trans (Nat.le_add_left _ _)

/-- The two columns of a row. -/
def EgcdRow.Small (a b : Nat) (e : EgcdRow) : Prop :=
  SmallColumn b e.oldR e.r e.oldS e.s ∧ SmallColumn a e.oldR e.r e.oldT e.t

theorem EgcdRow.small_start (a b : Nat) : (EgcdRow.start a b).Small a b :=
  ⟨⟨by simp [start], by simp [start], by simp [start], by simp [start]⟩,
    ⟨by simp [start], by simp [start], by simp [start], by simp [start]⟩⟩

theorem EgcdRow.Small.loop {a b : Nat} {e : EgcdRow} (h : e.Small a b) (k : Nat) :
    (egcdLoop k e).Small a b := by
  induction k generalizing e with
  | zero => exact h
  | succ k ih =>
    rw [egcdLoop]
    split
    next => exact h
    next hr =>
      have hpos := Nat.pos_of_ne_zero hr
      exact ih ⟨h.1.next hpos, h.2.next hpos⟩

/-- At the exit the balance reads `oldR · |c₁| = D`. -/
theorem SmallColumn.natAbs_le_of_exit {D g : Nat} {c₀ c₁ : Int} (h : SmallColumn D g 0 c₀ c₁) :
    c₀.natAbs ≤ max 1 (D / (2 * g)) := by
  rw [le_max_iff]
  refine (h.half rfl).imp_right fun ⟨hg, hhalf⟩ => ?_
  rw [Nat.le_div_iff_mul_le (by omega)]
  calc c₀.natAbs * (2 * g) = g * (2 * c₀.natAbs) := by ring
    _ ≤ g * c₁.natAbs := Nat.mul_le_mul_left g hhalf
    _ = D := by simpa using h.balance

theorem egcdRow_small (a b : Nat) : (egcdRow a b).Small a b := (EgcdRow.small_start a b).loop b

theorem egcdRow_r_eq_zero (a b : Nat) : (egcdRow a b).r = 0 :=
  egcdLoop_r_eq_zero (e := .start a b) le_rfl

theorem natAbs_egcdX_le (a b : Nat) : (egcdX a b).natAbs ≤ max 1 (b / (2 * egcdG a b)) := by
  have h := (egcdRow_small a b).1
  rw [egcdRow_r_eq_zero] at h
  exact h.natAbs_le_of_exit

theorem natAbs_egcdY_le (a b : Nat) : (egcdY a b).natAbs ≤ max 1 (a / (2 * egcdG a b)) := by
  have h := (egcdRow_small a b).2
  rw [egcdRow_r_eq_zero] at h
  exact h.natAbs_le_of_exit

/-! ## The number of iterations (R167) -/

/-- The quotient of the second of two iterations is at least 1. -/
theorem EgcdRow.next_next_r_add_le {e : EgcdRow} (hr : e.r ≠ 0) (hr' : e.next.r ≠ 0) :
    e.next.next.r + e.next.r ≤ e.r := by
  have hexact : e.next.r * (e.r / e.next.r) + e.next.next.r = e.r := Nat.div_add_mod _ _
  have hquot : 0 < e.r / e.next.r := Nat.div_pos (next_r_lt hr).le (Nat.pos_of_ne_zero hr')
  have := Nat.le_mul_of_pos_right e.next.r hquot
  omega

/-- Two iterations more than halve the remainder, so n bits of it take at most 2 n iterations. -/
theorem egcdIterations_le {n k : Nat} {e : EgcdRow} (h : e.r < 2 ^ n) :
    egcdIterations k e ≤ 2 * n := by
  induction n generalizing k e with
  | zero =>
    have hr : e.r = 0 := by omega
    cases k with
    | zero => rfl
    | succ k => rw [egcdIterations, if_pos hr]
  | succ n ih =>
    match k with
    | 0 => exact Nat.zero_le _
    | 1 =>
      rw [egcdIterations, egcdIterations]
      split <;> omega
    | k + 2 =>
      rw [egcdIterations, egcdIterations]
      split_ifs with hr hr'
      · omega
      · omega
      · have hlt := EgcdRow.next_r_lt hr'
        have hsum := EgcdRow.next_next_r_add_le hr hr'
        have := ih (k := k) (e := e.next.next) (by omega)
        omega

/-! ## The obligations -/

/-- Settles O41: the bound on the iterations is the second operand, from which the remainder
decreases to 0; the gcd and the pair are those of Mathlib's extended Euclid. -/
theorem euclidLoopGivesGcdAndBezout : Obligations.EuclidLoopGivesGcdAndBezout := fun a b =>
  ⟨egcdRow_r_eq_zero a b, egcdG_eq_gcd a b, by rw [mul_egcdX_add_mul_egcdY, egcdG_eq_gcd]⟩

/-- Settles O42: each column of coefficients stays small (`SmallColumn`). -/
theorem bezoutCoefficientsAreSmall : Obligations.BezoutCoefficientsAreSmall := fun a b =>
  ⟨natAbs_egcdX_le a b, natAbs_egcdY_le a b⟩

/-- Settles O43: the remainder starts as b, so the bound is even 2 W. -/
theorem euclidLoopIterationBound : Obligations.EuclidLoopIterationBound := fun _ _ b _ hb =>
  (egcdIterations_le (e := .start _ b) hb).trans (Nat.le_succ _)

end Sys2Proof.Machine
end

section
/-! PROOFS. The circuits of the multiplier and the divider (41_modmul.md R141, 43_egcd_modinv.md
R166), the power (42_modexp.md R151) and the plain product (50_host_software.md R228). -/

namespace Sys2Proof.Machine

/-! ## The restoring divider (R166) -/

/-- The number that the bits of u from bit k on make is twice that of the bits above k, plus bit
k. -/
theorem div_two_pow_eq_two_mul_add (u k : Nat) :
    u / 2 ^ k = 2 * (u / 2 ^ (k + 1)) + (u.testBit k).toNat := by
  rw [pow_succ, ← Nat.div_div_eq_div_mul, Nat.toNat_testBit, Nat.div_add_mod]

/-- One iteration on the quotient and remainder of m: those of m with a bit b shifted in. -/
theorem divStep_eq_div_mod (m : Nat) {v b : Nat} (hv : 0 < v) (hb : b < 2) :
    (if v ≤ 2 * (m % v) + b then (2 * (m / v) + 1, 2 * (m % v) + b - v)
      else (2 * (m / v), 2 * (m % v) + b)) = ((2 * m + b) / v, (2 * m + b) % v) := by
  have hm := Nat.div_add_mod m v
  have hlt := Nat.mod_lt m hv
  rw [eq_comm]
  split_ifs with hfits
  · rw [Prod.mk.injEq, Nat.div_mod_unique hv, mul_add, mul_left_comm]
    omega
  · rw [Prod.mk.injEq, Nat.div_mod_unique hv, mul_left_comm]
    omega

/-- The loop's invariant: with k bits to go, quotient and remainder of the bits read so far. -/
theorem divLoop_eq_div_mod (u : Nat) {v : Nat} (hv : 0 < v) (k : Nat) :
    divLoop u v k (u / 2 ^ k / v, u / 2 ^ k % v) = (u / v, u % v) := by
  induction k with
  | zero => rw [divLoop, pow_zero, Nat.div_one]
  | succ k ih =>
    rw [divLoop, divStep_eq_div_mod _ hv (Bool.toNat_lt _), ← div_two_pow_eq_two_mul_add, ih]

theorem divCircuit_eq_div_mod {width u v : Nat} (hu : u < 2 ^ width) (hv : 0 < v) :
    divCircuit width u v = (u / v, u % v) := by
  have h := divLoop_eq_div_mod u hv width
  rwa [Nat.div_eq_of_lt hu, Nat.zero_div, Nat.zero_mod] at h

/-! ## The multiplier (R141) -/

theorem reduceOnce_eq_mod {r m : Nat} (h : r < 2 * m) : reduceOnce r m = r % m := by
  rw [reduceOnce]
  split
  next hle => rw [Nat.mod_eq_sub_mod hle, Nat.mod_eq_of_lt (by omega)]
  next hlt => rw [Nat.mod_eq_of_lt (by omega)]

/-- One iteration doubles the running product and adds B for the bit of A, modulo m. -/
theorem mulLoop_succ {A B m r : Nat} (hr : r < m) (hB : B < m) (k : Nat) :
    mulLoop A B m (k + 1) r = mulLoop A B m k ((2 * r + (A.testBit k).toNat * B) % m) := by
  have hpos : 0 < m := by omega
  rw [mulLoop, reduceOnce_eq_mod (r := 2 * r) (by omega)]
  cases A.testBit k with
  | false => simp
  | true =>
    have hlt := Nat.mod_lt (2 * r) hpos
    simp [reduceOnce_eq_mod (show 2 * r % m + B < 2 * m by omega)]

/-- The loop's invariant: the running product shifted by the k bits to go, and those bits times
B. -/
theorem mulLoop_eq_mod {A B m r : Nat} (hr : r < m) (hB : B < m) (k : Nat) :
    mulLoop A B m k r = (r * 2 ^ k + A % 2 ^ k * B) % m := by
  induction k generalizing r with
  | zero => simp [mulLoop, Nat.mod_one, Nat.mod_eq_of_lt hr]
  | succ k ih =>
    rw [mulLoop_succ hr hB, ih (Nat.mod_lt _ (by omega))]
    calc ((2 * r + (A.testBit k).toNat * B) % m * 2 ^ k + A % 2 ^ k * B) % m
      _ = ((2 * r + (A.testBit k).toNat * B) * 2 ^ k + A % 2 ^ k * B) % m :=
        ((Nat.mod_modEq _ m).mul_right _).add_right _
      _ = (r * 2 ^ (k + 1) + A % 2 ^ (k + 1) * B) % m := by
        rw [Nat.mod_pow_succ, ← Nat.toNat_testBit]
        ring_nf

theorem mulCircuit_eq_mul_mod {width a b m : Nat} (ha : a < 2 ^ width) (hb : b < 2 ^ width)
    (hm : 0 < m) : mulCircuit width a b m = a * b % m := by
  have hA : a % m < 2 ^ width := (Nat.mod_le a m).trans_lt ha
  rw [mulCircuit, divCircuit_eq_div_mod ha hm, divCircuit_eq_div_mod hb hm,
    mulLoop_eq_mod hm (Nat.mod_lt b hm), zero_mul, zero_add, Nat.mod_eq_of_lt hA, ← Nat.mul_mod]

/-! ## The plain product (R228) -/

/-- The product of two half-width numbers is below the modulus 2^W - 1. -/
theorem mul_lt_two_pow_sub_one {a b k width : Nat} (hk : 0 < k) (hw : 2 * k ≤ width)
    (ha : a < 2 ^ k) (hb : b < 2 ^ k) : a * b < 2 ^ width - 1 := by
  have hmul : a * b ≤ (2 ^ k - 1) * (2 ^ k - 1) := Nat.mul_le_mul (by omega) (by omega)
  have hsq : (2 ^ k - 1) * (2 ^ k - 1) + 2 * 2 ^ k = 2 ^ (2 * k) + 1 := by
    rw [two_mul k, pow_add]
    zify [Nat.one_le_two_pow (n := k)]
    ring
  have hpow : 2 ^ (2 * k) ≤ 2 ^ width := Nat.pow_le_pow_right two_pos hw
  have htwo : 2 ^ 1 ≤ 2 ^ k := Nat.pow_le_pow_right two_pos hk
  omega

/-! ## The obligations -/

/-- Settles O34: `modpow_eq_pow_mod`, which holds for the modulus 0 too. -/
theorem squareAndMultiplyIsThePower : Obligations.SquareAndMultiplyIsThePower :=
  fun b e m _ => modpow_eq_pow_mod b e m

/-- Settles O36: before each iteration the pair is the quotient and remainder of the bits read. -/
theorem dividerCircuitIsDivmod : Obligations.DividerCircuitIsDivmod :=
  fun _ _ _ hu hv => divCircuit_eq_div_mod hu hv

/-- Settles O35: the divider reduces the factors, and the loop's invariant is `mulLoop_eq_mod`. -/
theorem multiplierCircuitIsMulmod : Obligations.MultiplierCircuitIsMulmod :=
  fun _ _ _ _ ha hb hm _ => mulCircuit_eq_mul_mod ha hb hm

/-- Settles O37: the modulus 2^W - 1 is not 0 and the product is below it, so it is its residue. -/
theorem modmulGivesPlainProduct : Obligations.ModmulGivesPlainProduct := by
  intro rd ra rb rc s hlegal hm ha hb
  have hwidth : 2 ≤ s.width := by
    have : s.width = 32 * s.cfg.limbs := rfl
    omega
  have hlt : s.reg ra * s.reg rb < s.reg rc :=
    hm ▸ mul_lt_two_pow_sub_one (by omega) (Nat.mul_div_le _ _) ha hb
  obtain ⟨hend, hreg, -⟩ :=
    completion_setReg_setFlags s rd (s.reg ra * s.reg rb % s.reg rc) s.flags
  exact ⟨_, exec_modmul_of_modulus_ne_zero (by omega) rd ra rb, hend,
    hreg.trans (Nat.mod_eq_of_lt hlt)⟩

end Sys2Proof.Machine
end

section
/-! PROOFS. The soundness of the primality test (44_primality.md R187): a prime passes every
round. -/

namespace Sys2Proof.Machine

/-- In a ring without zero divisors the squarings of a 2^k-th root of 1 start at 1 or meet -1. -/
theorem eq_one_or_exists_pow_two_pow_eq_neg_one {R : Type*} [Ring R] [NoZeroDivisors R]
    {x : R} {k : Nat} (h : x ^ 2 ^ k = 1) : x = 1 ∨ ∃ j, j < k ∧ x ^ 2 ^ j = -1 := by
  induction k with
  | zero => exact .inl (by simpa using h)
  | succ k ih =>
    rw [pow_succ, pow_mul, sq_eq_one_iff] at h
    obtain hone | hneg := h
    · exact (ih hone).imp_right fun ⟨j, hj, hx⟩ => ⟨j, hj.trans k.lt_succ_self, hx⟩
    · exact .inr ⟨k, k.lt_succ_self, hneg⟩

section
variable {n : Nat} (hn : 1 < n) (x : Nat)
include hn

theorem mod_eq_one_iff_zmod : x % n = 1 ↔ (x : ZMod n) = 1 := by
  rw [← Nat.cast_one (R := ZMod n), ZMod.natCast_eq_natCast_iff', Nat.mod_eq_of_lt hn]

theorem mod_eq_sub_one_iff_zmod : x % n = n - 1 ↔ (x : ZMod n) = -1 := by
  have hneg : ((n - 1 : Nat) : ZMod n) = -1 := by
    rw [Nat.cast_sub hn.le, ZMod.natCast_self, Nat.cast_one, zero_sub]
  rw [← hneg, ZMod.natCast_eq_natCast_iff', Nat.mod_eq_of_lt (Nat.sub_lt (by omega) one_pos)]

end

/-- R182's condition holds for a prime and every base: a^d is a 2^k-th root of 1 by Fermat. -/
theorem strongPass_of_prime {n k d : Nat} (hp : n.Prime) (h : n - 1 = 2 ^ k * d) {a : Nat}
    (ha : 0 < a) : StrongPass n a k d := by
  rw [StrongPass, or_iff_not_imp_left]
  intro hlt
  have : Fact n.Prime := ⟨hp⟩
  have hne : (a : ZMod n) ≠ 0 := by
    rw [ne_eq, ZMod.natCast_eq_zero_iff]
    exact Nat.not_dvd_of_pos_of_lt ha (by omega)
  have hroot : ((a : ZMod n) ^ d) ^ 2 ^ k = 1 := by
    rw [← pow_mul, mul_comm, ← h, ZMod.pow_card_sub_one_eq_one hne]
  rw [mod_eq_one_iff_zmod hp.one_lt, Nat.cast_pow]
  refine (eq_one_or_exists_pow_two_pow_eq_neg_one hroot).imp_right fun ⟨j, hj, hx⟩ => ⟨j, hj, ?_⟩
  rwa [mod_eq_sub_one_iff_zmod hp.one_lt, Nat.cast_pow, mul_comm, pow_mul]

/-- A prime passes the screening or, from 5 on, the round. -/
theorem roundVerdict_of_nat_prime {n a : Nat} (hp : n.Prime) (ha : 0 < a) :
    roundVerdict n a = true := by
  by_cases h5 : 5 ≤ n
  · obtain ⟨k, d, hd, h⟩ := Nat.exists_eq_two_pow_mul_odd (n := n - 1) (by omega)
    have hodd := hp.eq_two_or_odd
    have hk : 1 ≤ k := by
      by_contra hk
      obtain rfl : k = 0 := by omega
      rw [Nat.odd_iff] at hd
      omega
    exact (roundVerdict_iff_strongPass h5 h (Nat.odd_iff.mp hd) hk a).mpr
      (strongPass_of_prime hp h ha)
  · have h23 : n = 2 ∨ n = 3 := by
      have htwo := hp.two_le
      have hfour : n ≠ 4 := by rintro rfl; exact absurd hp (by decide)
      omega
    exact roundVerdict_of_prime ((screen_eq_iff n).1.mpr h23) a

theorem isProbablePrime_of_nat_prime {n : Nat} (hp : n.Prime) : isProbablePrime n = true := by
  have hpos : ∀ a ∈ [2, 3, 5, 7, 11], 0 < a := by decide
  exact isProbablePrime_iff_roundVerdict.mpr fun a ha => roundVerdict_of_nat_prime hp (hpos a ha)

theorem isProbablePrime_knownComposite : isProbablePrime 2152302898747 = true := by decide

/-- Settles O48: both commands set P to their verdict, and a prime has the verdict true. -/
theorem primalityTestNeverRejectsAPrime : Obligations.PrimalityTestNeverRejectsAPrime :=
  fun ra _ s hp => ⟨_, rfl, isProbablePrime_of_nat_prime hp, fun hw =>
    ⟨_, exec_mrround_of_two_le_witness hw ra, roundVerdict_of_nat_prime hp (by omega)⟩⟩

/-- Settles O49: the five rounds evaluated on the number of R187's example. -/
theorem primeReportsTheKnownComposite : Obligations.PrimeReportsTheKnownComposite :=
  ⟨rfl, fun _ _ h => ⟨_, rfl, by
    rw [State.succeed_flags, State.setFlags_flags, Flags.ofVerdict, h]
    exact isProbablePrime_knownComposite⟩⟩

end Sys2Proof.Machine
end

section
/-! PROOFS. The surrounding software (50_host_software.md): the keypair that two primes make. -/

namespace Sys2Proof.Machine

/-- MODINV's answer as the host sees it: an inverse below the modulus (50_host_software.md R232). -/
theorem modularInverse_ok {a m v : Nat} (h : modularInverse a m = .ok v) :
    v < m ∧ a * v % m = 1 % m := by
  unfold modularInverse at h
  split at h
  next => cases h
  next hm =>
    by_cases hgcd : Nat.gcd a m = 1
    · rw [modInverse_of_gcd_eq_one hgcd] at h
      cases h
      exact ⟨toNat_emod_lt hm _, mul_toNat_egcdX_emod hm hgcd⟩
    · rw [modInverse_of_gcd_ne_one hgcd] at h
      cases h

theorem plainProduct_eq_mul {c : Config} {p q k : Nat} (hk : 0 < k) (hw : 2 * k ≤ c.width)
    (hp : p < 2 ^ k) (hq : q < 2 ^ k) : plainProduct c p q = p * q :=
  Nat.mod_eq_of_lt (mul_lt_two_pow_sub_one hk hw hp hq)

/-- A keypair that two numbers make has the plain product of theirs as n, the fixed e, and MODINV's
answer for the plain product of their predecessors as d (50_host_software.md R218). -/
theorem keypairOf_ok {c : Config} {p q : Nat} {kp : Keypair} (h : keypairOf c p q = .ok kp) :
    kp.n = plainProduct c p q ∧ kp.e = 65537 ∧
      modularInverse kp.e (plainProduct c (p - 1) (q - 1)) = .ok kp.d := by
  unfold keypairOf at h
  split at h
  next => cases h
  next d hd => cases h; exact ⟨rfl, rfl, hd⟩

theorem generateKeys_ok {c : Config} {bits : Nat} {b : RetryBounds} {s : BitVec 64} {kp : Keypair}
    (h : (generateKeys c bits b s).result = .ok kp) :
    2 * bits ≤ c.width ∧
      ∃ p q, FoundPrime bits p ∧ FoundPrime bits q ∧ q ≠ p ∧ keypairOf c p q = .ok kp := by
  unfold generateKeys at h
  split at h
  next hw => exact ⟨hw, keyLoop_ok _ _ _ _ _ _ h⟩
  next => cases h

/-- A prime that a search finds has at least 8 bits (50_host_software.md R213). -/
theorem FoundPrime.two_lt {bits q : Nat} (h : FoundPrime bits q) : 2 < q := by
  have h8 : 2 ^ 7 ≤ 2 ^ (bits - 1) := Nat.pow_le_pow_right two_pos (by have := h.size; omega)
  exact (by decide : 2 < 2 ^ 7).trans_le (h8.trans h.low)

/-- Settles O59: both products are plain, since the primes have half the width at most, and d is
MODINV's answer for a modulus above 1. -/
theorem generatedKeysFitTheirPrimes : Obligations.GeneratedKeysFitTheirPrimes := by
  intro c bits b s kp h
  obtain ⟨hw, p, q, hp, hq, hne, hkp⟩ := generateKeys_ok h
  obtain ⟨hn, he, hd⟩ := keypairOf_ok hkp
  have hbits : 0 < bits := by have := hp.size; omega
  rw [plainProduct_eq_mul hbits hw hp.high hq.high] at hn
  rw [plainProduct_eq_mul hbits hw ((p.sub_le 1).trans_lt hp.high)
    ((q.sub_le 1).trans_lt hq.high)] at hd
  obtain ⟨hlt, hinv⟩ := modularInverse_ok hd
  have hphi : 1 < (p - 1) * (q - 1) :=
    one_lt_mul'' (by have := hp.two_lt; omega) (by have := hq.two_lt; omega)
  exact ⟨p, q, hp.probable, hq.probable, hne.symm, hp.low, hp.high, hq.low, hq.high, hn, he,
    hinv.trans (Nat.mod_eq_of_lt hphi), hlt⟩

end Sys2Proof.Machine
end

section
/-! PROOFS. The operand window limb by limb (20_memory.md R67, R68), and what a completion leaves of
it (10_state.md R44). -/

namespace Sys2Proof.Machine

/-! ## Limbs after a write, and the sum of the limbs -/

theorem State.readLimb_congr {s t : State} {r : Reg} (hc : t.cfg = s.cfg) (hr : t.reg r = s.reg r)
    (i : Nat) : t.readLimb r i = s.readLimb r i := by
  rw [State.readLimb, State.readLimb, hc, hr]

theorem State.readLimb_writeLimb {s : State} {r : Reg} {i : Nat} (hi : i < s.cfg.limbs) (v : Word)
    (q : Reg) (j : Nat) :
    (s.writeLimb r i v).readLimb q j = if q = r ∧ j = i then v else s.readLimb q j := by
  rw [State.writeLimb_of_lt r v hi]
  by_cases hq : q = r
  · subst hq
    rw [State.readLimb, State.reg_setReg_self, limb_setLimb, State.setReg_cfg]
    by_cases hj : j = i
    · rw [if_pos (hj ▸ hi), if_pos hj, if_pos ⟨rfl, hj⟩]
    · rw [if_neg hj, if_neg fun h : q = q ∧ j = i => hj h.2]; rfl
  · rw [if_neg fun h : q = r ∧ j = i => hq h.1]
    exact State.readLimb_congr (State.setReg_cfg s r _) (State.reg_setReg_of_ne s _ hq) j

/-- The first n limbs make up the low 32 n bits. -/
theorem sum_limb_mul_two_pow (v n : Nat) :
    ∑ i ∈ Finset.range n, (limb v i).toNat * 2 ^ (32 * i) = v % 2 ^ (32 * n) := by
  induction n with
  | zero => simp [Nat.mod_one]
  | succ n ih =>
    rw [Finset.sum_range_succ, ih, limb, BitVec.toNat_ofNat, pow_mul, pow_mul,
      Nat.mod_pow_succ (b := 2 ^ 32), mul_comm]

/-! ## The window of an idle block, address by address -/

theorem memRead_window_idle {s : State} {a : Addr} (hb : s.busy = false) (h4 : a.toNat % 4 = 0)
    (hw : 0x2000 ≤ a.toNat) :
    memRead a .word s = (⟨.okay, s.readLimb (windowReg a) (windowLimb a)⟩, s) := by
  simp [memRead, wellFormedAccess, h4, target_of_window hw, hb]

/-- A completion leaves the block idle and the registers outside the command's destinations alone
(10_state.md R44). -/
theorem exec_frame {i : Instr} {s t : State} (h : exec i s = .next t) :
    t.busy = false ∧ t.cfg = s.cfg ∧ SameRegsBut (dests i) s t := by
  obtain ⟨e, -, h'⟩ | ⟨u, hu, h'⟩ := exec_cases i s
  · cases h'.symm.trans h
    exact ⟨rfl, rfl, fun _ _ => rfl⟩
  · cases h'.symm.trans h
    exact ⟨rfl, hu.control.cfg, hu.regs⟩

/-! ## The obligations -/

/-- Settles O53: both reads are of an idle block's window, so it is a limb read after a limb
write. -/
theorem limbWriteThenRead : Obligations.LimbWriteThenRead := by
  intro s r q i j v hlegal hb hi hj a b
  have hwrite : memWrite a .word v s = (⟨.okay, 0⟩, s.writeLimb r i v) :=
    memWrite_windowAddr_idle r (hi.trans_le hlegal.2) v hb
  have hb' : (s.writeLimb r i v).busy = false := by rwa [State.writeLimb_of_lt r v hi]
  have hread {u : State} (hu : u.busy = false) :
      (memRead b .word u).1 = ⟨.okay, u.readLimb q j⟩ :=
    congrArg Prod.fst (memRead_windowAddr_idle q hj hu)
  rw [hwrite, hread hb, hread hb', State.readLimb_writeLimb hi]
  split <;> rfl

/-- Settles O54: the words read are the limbs, whose sum is the register reduced to W bits, which
the invariant makes the register itself. -/
theorem registerIsTheSumOfItsLimbs : Obligations.RegisterIsTheSumOfItsLimbs := by
  intro s r hinv hb
  have hword {i : Nat} (hi : i < s.cfg.limbs) :
      (memRead (windowAddr r i) .word s).1.data = limb (s.reg r) i := by
    rw [memRead_windowAddr_idle r (hi.trans_le hinv.legal.2) hb, State.readLimb_of_lt r hi]
  calc ∑ i ∈ Finset.range s.cfg.limbs,
        (memRead (windowAddr r i) .word s).1.data.toNat * 2 ^ (32 * i)
    _ = ∑ i ∈ Finset.range s.cfg.limbs, (limb (s.reg r) i).toNat * 2 ^ (32 * i) :=
      Finset.sum_congr rfl fun i hi => by rw [hword (Finset.mem_range.mp hi)]
    _ = s.reg r % 2 ^ s.width := sum_limb_mul_two_pow _ _
    _ = s.reg r := Nat.mod_eq_of_lt (hinv.inRange r)

/-- Settles O19: an aligned address of the window names a limb of a register that `exec_frame`
keeps; any other is refused before and after. -/
theorem windowOutsideDestinationsIsUnchanged :
    Obligations.WindowOutsideDestinationsIsUnchanged := by
  intro i s t h a hw hdests
  obtain ⟨hb, hcfg, hregs⟩ := exec_frame h
  by_cases h4 : a.toNat % 4 = 0
  · rw [memRead_window_idle hb h4 hw, memRead_window_idle rfl h4 hw]
    have hreg : windowReg a ∉ dests i := fun hmem => hdests _ hmem rfl
    exact congrArg (Response.mk .okay) (State.readLimb_congr hcfg (hregs _ hreg) _)
  · have hbad : wellFormedAccess a .word = false :=
      Bool.eq_false_iff.mpr fun hwell => h4 (wellFormedAccess_iff.mp hwell).2
    rw [memRead_refused (.inl hbad), memRead_refused (.inl hbad)]

end Sys2Proof.Machine
end

section
/-! PROOFS. The invariant and the other whole-machine rules (10_state.md R21, R33, R44, R49). -/

namespace Sys2Proof.Machine

/-! ## Registers in range (R21) -/

/-- Every operand register is in [0, 2^W), the clause `State.Inv.inRange`. -/
def State.InRange (s : State) : Prop := ∀ r, s.reg r < 2 ^ s.width

theorem State.InRange.setReg {s : State} (h : s.InRange) (r : Reg) {v : Nat}
    (hv : v < 2 ^ s.width) : (s.setReg r v).InRange := by
  intro q
  rw [State.reg_setReg, State.width_setReg]
  split
  · exact hv
  · exact h q

theorem State.legal_width {s : State} (h : s.cfg.legal) : 64 ≤ s.width := by
  have : s.width = 32 * s.cfg.limbs := rfl
  omega

/-- A coefficient within R164's bound fits a register. -/
theorem lt_of_le_max_one_div {x b d n : Nat} (h : x ≤ max 1 (b / d)) (hn : 0 < n)
    (hb : b < 2 ^ n) : x < 2 ^ n :=
  h.trans_lt (max_lt (Nat.one_lt_two_pow hn.ne') ((Nat.div_le_self b d).trans_lt hb))

/-- Every result fits its register: a remainder, a reduced sum or difference, a copy, an immediate,
or a gcd or coefficient of the Euclid loop. -/
theorem exec_inRange {i : Instr} {s t : State} (hc : s.cfg.legal) (hs : s.InRange)
    (h : exec i s = .next t) : t.InRange := by
  have hwidth := State.legal_width hc
  have hpos : 0 < s.width := by omega
  cases i with
  | nop => cases h; exact hs
  | ldi rd imm =>
    cases h
    exact hs.setReg rd (imm.isLt.trans_le (Nat.pow_le_pow_right two_pos (by omega)))
  | mov rd ra => cases h; exact hs.setReg rd (hs ra)
  | add rd ra rb => cases h; exact hs.setReg rd (s.wrap_lt _)
  | sub rd ra rb => cases h; exact hs.setReg rd (s.wrap_lt _)
  | cmp ra rb => cases h; exact hs
  | modmul rd ra rb rc =>
    by_cases hm : s.reg rc = 0
    · cases (exec_modmul_of_modulus_zero hm rd ra rb).symm.trans h; exact hs
    · cases (exec_modmul_of_modulus_ne_zero hm rd ra rb).symm.trans h
      exact hs.setReg rd ((Nat.mod_lt _ (Nat.pos_of_ne_zero hm)).trans (hs rc))
  | modexp rd ra rb rc =>
    by_cases hm : s.reg rc = 0
    · cases (exec_modexp_of_modulus_zero hm rd ra rb).symm.trans h; exact hs
    · cases (exec_modexp_of_modulus_ne_zero hm rd ra rb).symm.trans h
      exact hs.setReg rd ((Nat.mod_lt _ (Nat.pos_of_ne_zero hm)).trans (hs rc))
  | egcd rd ra rb rc re =>
    by_cases hd : rd = rc ∨ rd = re ∨ rc = re
    · cases (exec_egcd_of_equal_dests hd ra rb s).symm.trans h; exact hs
    · simp only [not_or] at hd
      obtain ⟨hdc, hde, hce⟩ := hd
      cases (exec_egcd_of_distinct_dests hdc hde hce ra rb s).symm.trans h
      have hg : egcdG (s.reg ra) (s.reg rb) < 2 ^ s.width := by
        rw [egcdG_eq_gcd]
        obtain hzero | ha := Nat.eq_zero_or_pos (s.reg ra)
        · rw [hzero, Nat.gcd_zero_left]; exact hs rb
        · exact (Nat.gcd_le_left _ ha).trans_lt (hs ra)
      exact ((hs.setReg rd hg).setReg rc
        (lt_of_le_max_one_div (natAbs_egcdX_le _ _) hpos (hs rb))).setReg re
        (lt_of_le_max_one_div (natAbs_egcdY_le _ _) hpos (hs ra))
  | modinv rd ra rc =>
    by_cases hm : s.reg rc = 0
    · cases (exec_modinv_of_modulus_zero hm rd ra).symm.trans h; exact hs
    · by_cases hgcd : Nat.gcd (s.reg ra) (s.reg rc) = 1
      · cases (exec_modinv_of_gcd_eq_one hm hgcd rd).symm.trans h
        exact hs.setReg rd ((toNat_emod_lt hm _).trans (hs rc))
      · cases (exec_modinv_of_gcd_ne_one hm hgcd rd).symm.trans h; exact hs
  | prime ra => cases h; exact hs
  | mrround ra rb =>
    by_cases hw : s.reg rb < 2
    · cases (exec_mrround_of_witness_lt_two hw ra).symm.trans h; exact hs
    · cases (exec_mrround_of_two_le_witness (Nat.not_lt.mp hw) ra).symm.trans h; exact hs

theorem complete_inRange {s t : State} (hc : s.cfg.legal) (hs : s.InRange)
    (h : complete s = .next t) : t.InRange := by
  cases hd : decode s.cmdr with
  | error e => cases (complete_of_decode_error hd).symm.trans h; exact hs
  | ok i => exact exec_inRange hc hs ((complete_of_decode_ok hd).symm.trans h)

/-! ## The invariant, kind of step by kind of step -/

/-- The invariant does not speak of the plan. -/
theorem State.Inv.withTurns {s : State} (h : s.Inv) (l : List Turn) : { s with turns := l }.Inv :=
  ⟨h.legal, h.inRange, h.busyDone, h.errDone, h.errorData⟩

theorem State.Inv.withResp {s : State} (h : s.Inv) {r : Option Response}
    (hr : ∀ a, r = some a → a.resp = .error → a.data = 0) : { s with resp := r }.Inv :=
  ⟨h.legal, h.inRange, h.busyDone, h.errDone, hr⟩

theorem inv_blockReset {s : State} (hc : s.cfg.legal)
    (hr : ∀ a, s.resp = some a → a.resp = .error → a.data = 0) : s.blockReset.Inv :=
  ⟨hc, fun r => by rw [State.reg_blockReset]; exact Nat.two_pow_pos _, nofun, absurd rfl, hr⟩

/-- A completion sets BUSY to 0 and DONE to 1. -/
theorem State.Inv.complete {s t : State} (hs : s.Inv) (h : complete s = .next t) : t.Inv := by
  obtain ⟨t', h', he, -⟩ := complete_next s
  cases h'.symm.trans h
  refine ⟨?_, complete_inRange hs.legal hs.inRange h, ?_, fun _ => he.done, ?_⟩
  · rw [he.control.cfg]; exact hs.legal
  · rw [he.busy]; nofun
  · rw [he.control.resp]; exact hs.errorData

/-- A limb write keeps the register in range, and acceptance clears DONE and ERRC. -/
theorem WriteEffect.inv {a : Addr} {n : Size} {v : Word} {s t : State}
    (h : WriteEffect a n v s t) (hs : s.Inv) : t.Inv := by
  have ⟨hlegal, hrange, hbusy, herr, hdata⟩ := hs
  cases h with
  | ignored => exact hs
  | softReset => exact inv_blockReset hlegal hdata
  | accepted => exact ⟨hlegal, hrange, nofun, absurd rfl, hdata⟩
  | hazard | enables | acknowledge => exact ⟨hlegal, hrange, hbusy, herr, hdata⟩
  | limb _ _ _ hi =>
    have hv := setLimb_lt v (hrange (windowReg a)) hi
    exact ⟨hlegal, State.InRange.setReg hrange _ hv, hbusy, herr, hdata⟩

theorem State.Inv.transact {s : State} (hs : s.Inv) (tr : Transaction) : (transact tr s).Inv := by
  obtain ⟨s', a, e, ha, (rfl | ⟨-, rfl, -⟩) | ⟨b, n, v, rfl, hw⟩⟩ := transact_eq tr s
  all_goals
    rw [e]
    refine State.Inv.withResp ?_ fun a' ha' => Option.some.inj ha' ▸ ha
  · exact hs
  · exact ⟨hs.legal, hs.inRange, hs.busyDone, hs.errDone, hs.errorData⟩
  · exact hw.inv hs

/-! ## The configuration (00_scope.md R8) -/

theorem transact_cfg (tr : Transaction) (s : State) : (transact tr s).cfg = s.cfg := by
  obtain ⟨s', a, e, -, (rfl | ⟨-, rfl, -⟩) | ⟨b, n, v, rfl, hw⟩⟩ := transact_eq tr s
  · rw [e]
  · rw [e]; rfl
  · rw [e]
    cases hw <;> rfl

/-! ## Who writes a register (R22) -/

/-- A transaction that changes a register is a soft reset or a word write in its window while
idle. -/
theorem transact_reg {tr : Transaction} {s : State} {r : Reg}
    (h : (transact tr s).reg r ≠ s.reg r) :
    tr.isSoftReset = true ∨ s.busy = false ∧ ∃ a v, tr = .write a .word v ∧ 0x2000 ≤ a.toNat ∧
      (a.toNat - 0x2000) / 0x200 = r.val := by
  obtain ⟨s', p, e, -, (rfl | ⟨-, rfl, -⟩) | ⟨a, n, v, rfl, hw⟩⟩ := transact_eq tr s
  · rw [e] at h; exact absurd rfl h
  · rw [e] at h; exact absurd rfl h
  · rw [e] at h
    cases hw with
    | softReset hs => exact .inl hs
    | limb hn hw hb hi =>
      have hr : r = windowReg a := by
        by_contra hne
        exact h (State.reg_setReg_of_ne s _ hne)
      exact .inr ⟨hb, a, v, by rw [hn], hw, by rw [hr]; rfl⟩
    | _ => exact absurd rfl h

/-- A completion that changes a register is that of a decoded command with the register among its
destinations. -/
theorem complete_reg {s t : State} {r : Reg} (h : complete s = .next t) (hne : t.reg r ≠ s.reg r) :
    ∃ i, decode s.cmdr = .ok i ∧ r ∈ dests i := by
  obtain ⟨e, -, h'⟩ | ⟨i, u, hi, hu, h'⟩ := complete_cases s
  · cases h'.symm.trans h; exact absurd rfl hne
  · cases h'.symm.trans h
    exact ⟨i, hi, by_contra fun hmem => hne (hu.regs r hmem)⟩

/-! ## The obligations -/

/-- Settles O2: the state after reset is the reset of a block of the reference configuration. -/
theorem invariantHoldsAtReset : Obligations.InvariantHoldsAtReset :=
  inv_blockReset (s := State.reset) (by decide) nofun

/-- Settles O3: the four kinds of step one by one; in a completion every result fits its register
(`exec_inRange`, with R164's bound for EGCD's coefficients). -/
theorem everyStepKeepsTheInvariant : Obligations.EveryStepKeepsTheInvariant := by
  intro s t hs h
  obtain ⟨-, h'⟩ | ⟨-, -, h'⟩ | ⟨rest, -, h'⟩ | ⟨tr, rest, -, h'⟩ := step_cases s
  · exact (hs.withTurns _).complete (h'.symm.trans h)
  · cases h'.symm.trans h
    exact hs.withTurns _
  · cases h'.symm.trans h
    exact (inv_blockReset (s := { s with turns := rest }) hs.legal hs.errorData).withResp nofun
  · cases h'.symm.trans h
    exact (hs.withTurns rest).transact tr

/-- Settles O4: `step_next` for the plan, and the configuration by the kinds of step. -/
theorem stepKeepsTheInstance : Obligations.StepKeepsTheInstance := by
  intro s t h
  obtain ⟨t', ht', hturns⟩ := step_next s
  cases ht'.symm.trans h
  refine ⟨?_, hturns⟩
  obtain ⟨-, h'⟩ | ⟨-, -, h'⟩ | ⟨rest, -, h'⟩ | ⟨tr, rest, -, h'⟩ := step_cases s
  · obtain ⟨u, hu, he, -⟩ := complete_next { s with turns := s.turns.tail }
    cases (h'.trans hu).symm.trans h
    exact he.control.cfg
  · cases h'.symm.trans h; rfl
  · cases h'.symm.trans h; rfl
  · cases h'.symm.trans h
    exact transact_cfg tr _

/-- Settles O11: with nothing planned the step is the engine's turn, as it is with a planned
completion (`step_completion`). -/
theorem stepRunsTheDecodedCommand : Obligations.StepRunsTheDecodedCommand := by
  intro s i hb hi
  refine ⟨fun hr => ?_, fun rest hr => ?_⟩
  · rw [step, advance, hr]
    exact (if_pos hb).trans (complete_of_decode_ok hi)
  · exact (step_completion hb hr).trans (complete_of_decode_ok hi)

/-- Settles O21: the engine has no turn while the block is idle. -/
theorem idleBlockHoldsItsState : Obligations.IdleBlockHoldsItsState := by
  intro s hb hr
  rw [step, advance, hr]
  exact if_neg (by simp [hb])

/-- Settles O17: a completion writes destinations only, a transaction as `transact_reg` has it. -/
theorem registersChangeOnlyByTheirWriters : Obligations.RegistersChangeOnlyByTheirWriters := by
  intro s t r h hne
  obtain ⟨hc, h'⟩ | ⟨-, -, h'⟩ | ⟨rest, hr, -⟩ | ⟨tr, rest, hr, h'⟩ := step_cases s
  · exact .inl ⟨hc, complete_reg (s := { s with turns := s.turns.tail }) (h'.symm.trans h) hne⟩
  · cases h'.symm.trans h; exact absurd rfl hne
  · exact .inr (.inr (.inl ⟨rest, hr⟩))
  · cases h'.symm.trans h
    obtain hs | ⟨hb, a, v, rfl, hw, ha⟩ := transact_reg (s := { s with turns := rest }) hne
    · exact .inr (.inr (.inr ⟨tr, rest, hr, hs⟩))
    · exact .inr (.inl ⟨hb, a, v, rest, hr, hw, ha⟩)

end Sys2Proof.Machine
end

section
/-! PROOFS. A command in flight (10_state.md R44, R49): what transactions leave of it, and that it
completes. -/

namespace Sys2Proof.Machine

/-! ## The command in flight and the transactions beside it (R44) -/

/-- In t the command of s is still in flight, on the same operands and flags. -/
structure SameFlight (s t : State) : Prop extends SameOperands s t where
  flags : t.flags = s.flags
  cmdr : t.cmdr = s.cmdr
  busy : t.busy = true

theorem sameFlight_withTurns {s : State} (hb : s.busy = true) (l : List Turn) :
    SameFlight s { s with turns := l } := ⟨⟨rfl, rfl⟩, rfl, rfl, hb⟩

theorem SameFlight.trans {s t u : State} (h : SameFlight s t) (h' : SameFlight t u) :
    SameFlight s u :=
  ⟨⟨h'.cfg.trans h.cfg, h'.x.trans h.x⟩, h'.flags.trans h.flags, h'.cmdr.trans h.cmdr, h'.busy⟩

/-- While BUSY a transaction but a soft reset changes pending bits and enables at most. -/
theorem transact_sameFlight {tr : Transaction} {s : State} (hb : s.busy = true)
    (h : tr.isSoftReset = false) : SameFlight s (transact tr s) := by
  have hbusy : s.busy ≠ false := by simp [hb]
  obtain ⟨s', a, e, -, (rfl | ⟨-, rfl, -⟩) | ⟨b, n, v, rfl, hw⟩⟩ := transact_eq tr s
  · rw [e]; exact ⟨⟨rfl, rfl⟩, rfl, rfl, hb⟩
  · rw [e]; exact ⟨⟨rfl, rfl⟩, rfl, rfl, hb⟩
  · rw [e]
    cases hw with
    | softReset h' => rw [h] at h'; cases h'
    | accepted _ hidle | limb _ _ hidle => exact absurd hidle hbusy
    | ignored | hazard | enables | acknowledge => exact ⟨⟨rfl, rfl⟩, rfl, rfl, hb⟩

theorem transact_turns (tr : Transaction) (s : State) : (transact tr s).turns = s.turns := by
  obtain ⟨t, ht, hturns⟩ := step_next { s with turns := .transaction tr :: s.turns }
  cases (step_transaction rfl).symm.trans ht
  exact hturns

/-- The completions of one command on the same operands write the same. -/
theorem SameFlight.complete {s s' : State} (h : SameFlight s s') :
    ∃ t u, complete s' = .next t ∧ complete s = .next u ∧ SameRegs u t ∧ t.flags = u.flags ∧
      t.errc = u.errc ∧ EndedWith t.errc s' t ∧ u.cmdr = s.cmdr := by
  obtain ⟨t, u, ht, hu, herrc, hx, hflags⟩ := complete_congr h.cfg h.x h.flags h.cmdr
  obtain ⟨t', ht', hend, -⟩ := complete_next s'
  cases ht'.symm.trans ht
  obtain ⟨u', hu', hend', -⟩ := complete_next s
  cases hu'.symm.trans hu
  exact ⟨t, u, ht, hu, State.reg_congr hx, hflags, herrc, hend, hend'.control.cmdr⟩

/-! ## The run to the completion (R49) -/

theorem step_of_completesNext {s : State} (h : s.completesNext) :
    step s = complete { s with turns := s.turns.tail } := by
  obtain ⟨hb, hr | ⟨rest, hr⟩⟩ := h
  · obtain ⟨_⟩ := s
    cases hr
    exact if_pos hb
  · rw [step_completion hb hr, hr]; rfl

/-- After the planned transactions the completion is that of the command in flight before them. -/
theorem run_transactions_completion {s : State} {l : List Transaction} {tail : List Turn}
    (hb : s.busy = true) (hl : ∀ tr ∈ l, tr.isSoftReset = false)
    (htail : tail = [] ∨ ∃ rest, tail = .completion :: rest)
    (hs : s.turns = l.map Turn.transaction ++ tail) :
    ∃ s', SameFlight s s' ∧ s'.turns = tail.tail ∧
      Sys2Proof.core.run (l.length + 1) s = complete s' := by
  induction l generalizing s with
  | nil =>
    obtain rfl : s.turns = tail := hs
    obtain ⟨t, ht, -⟩ := complete_next { s with turns := s.turns.tail }
    have hstep := (step_of_completesNext ⟨hb, htail⟩).trans ht
    exact ⟨{ s with turns := s.turns.tail }, sameFlight_withTurns hb _, rfl,
      (run_succ 0 hstep).trans ht.symm⟩
  | cons tr l ih =>
    rw [List.forall_mem_cons] at hl
    have hflight := transact_sameFlight
      (s := { s with turns := l.map Turn.transaction ++ tail }) hb hl.1
    obtain ⟨s', hs', hturns, hrun⟩ := ih hflight.busy hl.2 (transact_turns _ _)
    exact ⟨s', ((sameFlight_withTurns hb _).trans hflight).trans hs', hturns,
      (run_succ _ (step_transaction hs)).trans hrun⟩

/-- A plan without a reset is some transactions, and then its end or a completion. -/
theorem exists_transactions_append {turns : List Turn} (h : ∀ m ∈ turns, m.isReset = false) :
    ∃ (l : List Transaction) (tail : List Turn), turns = l.map Turn.transaction ++ tail ∧
      (tail = [] ∨ ∃ rest, tail = .completion :: rest) ∧ ∀ tr ∈ l, tr.isSoftReset = false := by
  induction turns with
  | nil => exact ⟨[], [], rfl, .inl rfl, nofun⟩
  | cons m rest ih =>
    rw [List.forall_mem_cons] at h
    cases m with
    | pinReset => cases h.1
    | completion => exact ⟨[], _, rfl, .inr ⟨rest, rfl⟩, nofun⟩
    | transaction tr =>
      obtain ⟨l, tail, rfl, htail, hl⟩ := ih h.2
      exact ⟨tr :: l, tail, rfl, htail, List.forall_mem_cons.mpr ⟨h.1, hl⟩⟩

/-- Each step uses up a move, and the step after the last leaves the block idle. -/
theorem run_turns_length_succ (s : State) :
    ∃ t, Sys2Proof.core.run (s.turns.length + 1) s = .next t ∧ t.busy = false ∧ t.turns = [] := by
  generalize hn : s.turns.length = n
  induction n generalizing s with
  | zero =>
    have hr : s.turns = [] := List.length_eq_zero_iff.mp hn
    obtain ⟨t, ht, hb, hturns, -⟩ := engineTurn_next s
    have hstep : step s = .next t := by rw [step, advance, hr]; exact ht
    exact ⟨t, run_succ 0 hstep, hb, hturns.trans hr⟩
  | succ n ih =>
    obtain ⟨t, ht, hturns⟩ := step_next s
    obtain ⟨u, hu, hdone⟩ := ih t (by rw [hturns, List.length_tail, hn, Nat.add_sub_cancel])
    exact ⟨u, (run_succ _ ht).trans hu, hdone⟩

/-! ## The obligations -/

/-- Settles O22: the transactions leave the command in flight (`transact_sameFlight`), and its
completion looks at nothing else. -/
theorem commandInFlightIsUndisturbed : Obligations.CommandInFlightIsUndisturbed := by
  intro s l rest hb hl hs
  obtain ⟨s', hflight, hturns, hrun⟩ :=
    run_transactions_completion hb hl (.inr ⟨rest, rfl⟩) hs
  obtain ⟨t, u, ht, hu, hregs, hflags, herrc, hend, hcmdr⟩ := hflight.complete
  exact ⟨t, u, hrun.trans ht, hu, hregs, hflags, herrc,
    (hend.control.cmdr.trans hflight.cmdr).trans hcmdr.symm, hend.busy, hend.done,
    hend.control.turns.trans hturns⟩

/-- Settles O20: the run uses up the plan; without a reset in it the command completes after the
transactions planned before the first completion. -/
theorem everyCommandCompletes : Obligations.EveryCommandCompletes := by
  refine ⟨run_turns_length_succ, fun s hb hreset => ?_⟩
  obtain ⟨l, tail, hs, htail, hl⟩ := exists_transactions_append hreset
  obtain ⟨s', hflight, -, hrun⟩ := run_transactions_completion hb hl htail hs
  obtain ⟨t, u, ht, hu, hregs, hflags, herrc, hend, -⟩ := hflight.complete
  have hlen : l.length + 1 ≤ s.turns.length + 1 := by simp [hs]
  exact ⟨_, t, u, hlen, hrun.trans ht, hu, hend.busy, hend.done, herrc,
    hend.control.cmdr.trans hflight.cmdr, hregs, hflags, hend.pending.1⟩

end Sys2Proof.Machine
end

section
/-! PROOFS. What a command reads (30_encoding.md R96), and ADD after SUB (40_bigint_add_sub_cmp.md
R128). -/

namespace Sys2Proof.Machine

/-! ## The outcome as a function of the sources (R96) -/

/-- Command i ends alike in s and u: one code, and on success the same values in its destinations
and in the flags of its row. -/
def SameOutcome (i : Instr) (s u : State) : Prop :=
  ∃ t v, exec i s = .next t ∧ exec i u = .next v ∧ t.errc = v.errc ∧
    (t.errc = .ok → (∀ r ∈ dests i, t.reg r = v.reg r) ∧
      (writesZC i = true → t.flags.z = v.flags.z ∧ t.flags.c = v.flags.c) ∧
      (writesSigns i = true → t.flags.xneg = v.flags.xneg ∧ t.flags.yneg = v.flags.yneg) ∧
      (writesP i = true → t.flags.p = v.flags.p))

section
variable {i : Instr} {s u : State}

theorem sameOutcome_of_error {e : ErrCode} (hs : exec i s = .next (s.errorCompletion e))
    (hu : exec i u = .next (u.errorCompletion e)) (he : e ≠ .ok) : SameOutcome i s u :=
  ⟨_, _, hs, hu, rfl, fun h => absurd h he⟩

theorem sameOutcome_of_setReg {rd : Reg} {v : Nat} (hdests : dests i = [rd])
    (hz : writesZC i = false) (hsigns : writesSigns i = false) (hp : writesP i = false)
    (hs : exec i s = .next (s.setReg rd v).succeed)
    (hu : exec i u = .next (u.setReg rd v).succeed) : SameOutcome i s u := by
  refine ⟨_, _, hs, hu, rfl, fun _ => ⟨?_, by simp [hz], by simp [hsigns], by simp [hp]⟩⟩
  simp [hdests]

/-- Only the sources of a command and the width of a register decide its outcome. -/
theorem sameOutcome_of_sources (hc : s.cfg = u.cfg) (h : ∀ r ∈ sources i, s.reg r = u.reg r) :
    SameOutcome i s u := by
  have hwidth : s.width = u.width := congrArg Config.width hc
  cases i <;>
    simp only [sources, List.forall_mem_cons, List.not_mem_nil, false_imp_iff, implies_true,
      and_true] at h
  case nop => exact ⟨_, _, rfl, rfl, rfl, fun _ => ⟨nofun, nofun, nofun, nofun⟩⟩
  case ldi rd imm => exact sameOutcome_of_setReg rfl rfl rfl rfl rfl rfl
  case mov rd ra => exact sameOutcome_of_setReg rfl rfl rfl rfl rfl (by rw [h]; rfl)
  case add rd ra rb =>
    obtain ⟨ha, hb⟩ := h
    refine ⟨_, _, rfl, rfl, rfl, fun _ => ⟨?_, fun _ => ?_, nofun, nofun⟩⟩
    · simp [dests, State.wrap, hwidth, ha, hb]
    · simp [Flags.ofAdd, hwidth, ha, hb]
  case sub rd ra rb =>
    obtain ⟨ha, hb⟩ := h
    refine ⟨_, _, rfl, rfl, rfl, fun _ => ⟨?_, fun _ => ?_, nofun, nofun⟩⟩
    · simp [dests, State.wrap, hwidth, ha, hb]
    · simp [Flags.ofSub, ha, hb]
  case cmp ra rb =>
    obtain ⟨ha, hb⟩ := h
    refine ⟨_, _, rfl, rfl, rfl, fun _ => ⟨nofun, fun _ => ?_, nofun, nofun⟩⟩
    simp [Flags.ofCmp, ha, hb]
  case modmul rd ra rb rc =>
    obtain ⟨ha, hb, hm⟩ := h
    by_cases h0 : s.reg rc = 0
    · exact sameOutcome_of_error (exec_modmul_of_modulus_zero h0 rd ra rb)
        (exec_modmul_of_modulus_zero (hm ▸ h0) rd ra rb) nofun
    · refine sameOutcome_of_setReg rfl rfl rfl rfl (exec_modmul_of_modulus_ne_zero h0 rd ra rb) ?_
      rw [ha, hb, hm]
      exact exec_modmul_of_modulus_ne_zero (hm ▸ h0) rd ra rb
  case modexp rd ra rb rc =>
    obtain ⟨ha, hb, hm⟩ := h
    by_cases h0 : s.reg rc = 0
    · exact sameOutcome_of_error (exec_modexp_of_modulus_zero h0 rd ra rb)
        (exec_modexp_of_modulus_zero (hm ▸ h0) rd ra rb) nofun
    · refine sameOutcome_of_setReg rfl rfl rfl rfl (exec_modexp_of_modulus_ne_zero h0 rd ra rb) ?_
      rw [ha, hb, hm]
      exact exec_modexp_of_modulus_ne_zero (hm ▸ h0) rd ra rb
  case egcd rd ra rb rc re =>
    obtain ⟨ha, hb⟩ := h
    by_cases hd : rd = rc ∨ rd = re ∨ rc = re
    · exact sameOutcome_of_error (exec_egcd_of_equal_dests hd ra rb s)
        (exec_egcd_of_equal_dests hd ra rb u) nofun
    · simp only [not_or] at hd
      obtain ⟨hdc, hde, hce⟩ := hd
      refine ⟨_, _, exec_egcd_of_distinct_dests hdc hde hce ra rb s,
        exec_egcd_of_distinct_dests hdc hde hce ra rb u, rfl, fun _ => ⟨?_, nofun, fun _ => ?_,
          nofun⟩⟩
      · simp [dests, State.reg_setReg, hdc, hde, hce, ha, hb]
      · simp [Flags.ofBezout, ha, hb]
  case modinv rd ra rc =>
    obtain ⟨ha, hm⟩ := h
    by_cases h0 : s.reg rc = 0
    · exact sameOutcome_of_error (exec_modinv_of_modulus_zero h0 rd ra)
        (exec_modinv_of_modulus_zero (hm ▸ h0) rd ra) nofun
    · by_cases hgcd : Nat.gcd (s.reg ra) (s.reg rc) = 1
      · refine sameOutcome_of_setReg rfl rfl rfl rfl (exec_modinv_of_gcd_eq_one h0 hgcd rd) ?_
        rw [ha, hm]
        exact exec_modinv_of_gcd_eq_one (hm ▸ h0) (ha ▸ hm ▸ hgcd) rd
      · exact sameOutcome_of_error (exec_modinv_of_gcd_ne_one h0 hgcd rd)
          (exec_modinv_of_gcd_ne_one (hm ▸ h0) (ha ▸ hm ▸ hgcd) rd) nofun
  case prime ra =>
    refine ⟨_, _, rfl, rfl, rfl, fun _ => ⟨nofun, nofun, nofun, fun _ => ?_⟩⟩
    simp [Flags.ofVerdict, h]
  case mrround ra rb =>
    obtain ⟨ha, hb⟩ := h
    by_cases hw : s.reg rb < 2
    · exact sameOutcome_of_error (exec_mrround_of_witness_lt_two hw ra)
        (exec_mrround_of_witness_lt_two (hb ▸ hw) ra) nofun
    · have hw' := Nat.not_lt.mp hw
      refine ⟨_, _, exec_mrround_of_two_le_witness hw' ra,
        exec_mrround_of_two_le_witness (hb ▸ hw') ra, rfl, fun _ => ⟨nofun, nofun, nofun,
          fun _ => ?_⟩⟩
      simp [Flags.ofVerdict, ha, hb]

end

/-- Settles O18: `sameOutcome_of_sources`, command by command. -/
theorem outcomeDependsOnSourcesAlone : Obligations.OutcomeDependsOnSourcesAlone :=
  fun _ _ _ hc h => sameOutcome_of_sources hc h

/-! ## ADD after SUB (R128) -/

/-- Adding b to the reduced difference a - b and reducing again gives a back. -/
theorem State.wrap_wrap_sub_add {s : State} {a : Nat} (ha : a < 2 ^ s.width) (b : Nat) :
    s.wrap (s.wrap (a - b) + b) = a := by
  zify at ha ⊢
  rw [State.coe_wrap, State.coe_wrap, Int.emod_add_emod, sub_add_cancel,
    Int.emod_eq_of_lt a.cast_nonneg ha]

/-- Settles O31: ADD reads the difference that SUB wrote and b as it was, since t is another
register. -/
theorem subThenAddRestoresTheMinuend : Obligations.SubThenAddRestoresTheMinuend := by
  intro rt ru ra rb s hinv hne
  refine ⟨_, _, rfl, rfl, ?_⟩
  rw [State.reg_succeed, State.reg_setFlags, State.reg_setReg_self, State.reg_succeed,
    State.reg_setFlags, State.reg_setReg_self, State.reg_succeed, State.reg_setFlags,
    State.reg_setReg_of_ne s _ hne.symm]
  exact State.wrap_wrap_sub_add (hinv.inRange ra) (s.reg rb)

end Sys2Proof.Machine
end
